-- ==== Sys2Proof/Word.lean ====
section
/-! DEFINITION. The word types of the machine (00_scope.md R6, R7, R8; 10_state.md R21): bytes, 16-bit words,
12-bit addresses and register numbers. Every value is unsigned. -/

namespace Sys2Proof

/-- A byte of memory or a general register (`XLEN` = 8, R6). -/
abbrev Byte := BitVec 8

/-- A 16-bit word: an instruction word, `pc`, `I`, a stack slot (R6). -/
abbrev Word := BitVec 16

/-- A 12-bit immediate address `NNN`, or the loader port's address (R92, R39). -/
abbrev Addr := BitVec 12

/-- A register number, or a 4-bit count: every value of a 4-bit field (R21, R92, R102). -/
abbrev RegIx := Fin 16

end Sys2Proof
end

