-- ==== Sys2Proof/Syntax.lean ====
section
/-! DEFINITION. The instructions: one constructor per row of spec/opcode_table.json (30_encoding.md R101), with the
operands of the row's rule already extracted (R92, R93). Every operand type admits exactly the values of its field,
"never out-of-range by construction" (R102). -/

namespace Sys2Proof

/-- An instruction (30_encoding.md R101). The comment of each constructor is its pattern. -/
inductive Instr where
  /-- `0__0` clear-display, R210 -/
  | cls
  /-- `0__E` return, R140 -/
  | ret
  /-- `1NNN` jump, R141 -/
  | jpNnn (nnn : Addr)
  /-- `2NNN` call, R142 -/
  | callNnn (nnn : Addr)
  /-- `3XKK` skip-if-equal-immediate, R143 -/
  | seVxKk (x : RegIx) (kk : Byte)
  /-- `4XKK` skip-if-not-equal-immediate, R144 -/
  | sneVxKk (x : RegIx) (kk : Byte)
  /-- `5XY_` skip-if-registers-equal, R145 -/
  | seVxVy (x y : RegIx)
  /-- `6XKK` load-immediate, R160 -/
  | ldVxKk (x : RegIx) (kk : Byte)
  /-- `7XKK` add-immediate, R161 -/
  | addVxKk (x : RegIx) (kk : Byte)
  /-- `8XY0` move, R162 -/
  | ldVxVy (x y : RegIx)
  /-- `8XY1` OR, R163 -/
  | orVxVy (x y : RegIx)
  /-- `8XY2` AND, R164 -/
  | andVxVy (x y : RegIx)
  /-- `8XY3` XOR, R165 -/
  | xorVxVy (x y : RegIx)
  /-- `8XY4` add-with-carry, R166 -/
  | addVxVy (x y : RegIx)
  /-- `8XY5` sub-with-borrow, R167 -/
  | subVxVy (x y : RegIx)
  /-- `8X_6` shift-right-with-flag, R168 (`Y` is ignored) -/
  | shrVx (x : RegIx)
  /-- `8XY7` sub-reverse-with-borrow, R169 -/
  | subnVxVy (x y : RegIx)
  /-- `8X_E` shift-left-with-flag, R170 (`Y` is ignored) -/
  | shlVx (x : RegIx)
  /-- `9XY_` skip-if-registers-not-equal, R146 -/
  | sneVxVy (x y : RegIx)
  /-- `ANNN` set-index, R190 -/
  | ldINnn (nnn : Addr)
  /-- `BNNN` jump-with-offset, R147 -/
  | jpV0Nnn (nnn : Addr)
  /-- `CXKK` random-and, R171 -/
  | rndVxKk (x : RegIx) (kk : Byte)
  /-- `DXYN` draw, R211 -/
  | drwVxVyN (x y : RegIx) (n : Fin 16)
  /-- `EX_E` skip-if-key-pressed, R230 -/
  | skpVx (x : RegIx)
  /-- `EX_1` skip-if-key-not-pressed, R231 -/
  | sknpVx (x : RegIx)
  /-- `FX07` read-delay-timer, R233 -/
  | ldVxDt (x : RegIx)
  /-- `FX0A` wait-for-key, R232 -/
  | ldVxK (x : RegIx)
  /-- `FX15` set-delay-timer, R234 -/
  | ldDtVx (x : RegIx)
  /-- `FX18` set-sound-timer, R235 -/
  | ldStVx (x : RegIx)
  /-- `FX1E` add-to-index, R191 -/
  | addIVx (x : RegIx)
  /-- `FX29` font-address, R192 -/
  | ldFVx (x : RegIx)
  /-- `FX33` BCD-store, R193 -/
  | ldBVx (x : RegIx)
  /-- `FX55` block-store, R194: `X` is a count of registers -/
  | ldMemVx (x : Fin 16)
  /-- `FX65` block-load, R195: `X` is a count of registers -/
  | ldVxMem (x : Fin 16)
  /-- Any unmapped word, R99, R126; the word itself is kept (log 15). -/
  | nop (w : Word)
  deriving DecidableEq, Repr

end Sys2Proof
end

