-- ==== Sys2Proof/Decode.lean ====
section
/-! DEFINITION. The decoder of 30_encoding.md: the two-level dispatch of R94 to R99 over the fields of R92, on a word
and on bytes; the opcode table of R101; then the encoder, which writes ignored bits as R105 does. -/

namespace Sys2Proof

/-! ### Fields, R92 -/

/-- `F` = `op[15:12]`, the primary family. -/
def fieldF (op : Word) : Nat := (op.extractLsb 15 12).toNat

/-- `X` = `op[11:8]`. -/
def fieldX (op : Word) : RegIx := ⟨(op.extractLsb 11 8).toNat, (op.extractLsb 11 8).isLt⟩

/-- `Y` = `op[7:4]`. -/
def fieldY (op : Word) : RegIx := ⟨(op.extractLsb 7 4).toNat, (op.extractLsb 7 4).isLt⟩

/-- `N` = `op[3:0]`, a count (draw). -/
def fieldN (op : Word) : Fin 16 := ⟨(op.extractLsb 3 0).toNat, (op.extractLsb 3 0).isLt⟩

/-- `KK` = `op[7:0]`. -/
def fieldKK (op : Word) : Byte := op.extractLsb 7 0

/-- `NNN` = `op[11:0]`. -/
def fieldNNN (op : Word) : Addr := op.extractLsb 11 0

/-- The secondary key of families 0x0, 0x8 and 0xE: `op[3:0]` (R95, R96, R97). -/
def key4 (op : Word) : Nat := (op.extractLsb 3 0).toNat

/-- The secondary key of family 0xF: `op[7:0]` (R98). -/
def key8 (op : Word) : Nat := (op.extractLsb 7 0).toNat

/-! ### Dispatch, R94 to R99 -/

/-- Family 0x0 (R95). -/
def decodeFamily0 (op : Word) : Instr :=
  match key4 op with
  | 0x0 => .cls
  | 0xE => .ret
  | _ => .nop op

/-- Family 0x8 (R96). -/
def decodeFamily8 (op : Word) : Instr :=
  match key4 op with
  | 0x0 => .ldVxVy (fieldX op) (fieldY op)
  | 0x1 => .orVxVy (fieldX op) (fieldY op)
  | 0x2 => .andVxVy (fieldX op) (fieldY op)
  | 0x3 => .xorVxVy (fieldX op) (fieldY op)
  | 0x4 => .addVxVy (fieldX op) (fieldY op)
  | 0x5 => .subVxVy (fieldX op) (fieldY op)
  | 0x6 => .shrVx (fieldX op)
  | 0x7 => .subnVxVy (fieldX op) (fieldY op)
  | 0xE => .shlVx (fieldX op)
  | _ => .nop op

/-- Family 0xE (R97). -/
def decodeFamilyE (op : Word) : Instr :=
  match key4 op with
  | 0xE => .skpVx (fieldX op)
  | 0x1 => .sknpVx (fieldX op)
  | _ => .nop op

/-- Family 0xF (R98). -/
def decodeFamilyF (op : Word) : Instr :=
  match key8 op with
  | 0x07 => .ldVxDt (fieldX op)
  | 0x0A => .ldVxK (fieldX op)
  | 0x15 => .ldDtVx (fieldX op)
  | 0x18 => .ldStVx (fieldX op)
  | 0x1E => .addIVx (fieldX op)
  | 0x29 => .ldFVx (fieldX op)
  | 0x33 => .ldBVx (fieldX op)
  | 0x55 => .ldMemVx (fieldX op)
  | 0x65 => .ldVxMem (fieldX op)
  | _ => .nop op

/-- The decoder of one word (R94, R101, R107): total, one instruction for each of the 65536 words. The last arm is
for no word (a family is below 16). -/
def decodeWord (op : Word) : Instr :=
  match fieldF op with
  | 0x0 => decodeFamily0 op
  | 0x1 => .jpNnn (fieldNNN op)
  | 0x2 => .callNnn (fieldNNN op)
  | 0x3 => .seVxKk (fieldX op) (fieldKK op)
  | 0x4 => .sneVxKk (fieldX op) (fieldKK op)
  | 0x5 => .seVxVy (fieldX op) (fieldY op)
  | 0x6 => .ldVxKk (fieldX op) (fieldKK op)
  | 0x7 => .addVxKk (fieldX op) (fieldKK op)
  | 0x8 => decodeFamily8 op
  | 0x9 => .sneVxVy (fieldX op) (fieldY op)
  | 0xA => .ldINnn (fieldNNN op)
  | 0xB => .jpV0Nnn (fieldNNN op)
  | 0xC => .rndVxKk (fieldX op) (fieldKK op)
  | 0xD => .drwVxVyN (fieldX op) (fieldY op) (fieldN op)
  | 0xE => decodeFamilyE op
  | 0xF => decodeFamilyF op
  | _ => .nop op

/-- Why bytes are no instruction: only because there are fewer than two of them (R90, R108: no word is illegal). -/
inductive DecodeError where
  /-- fewer than two bytes are left -/
  | truncated
  deriving DecidableEq, Repr

/-- One word from two bytes, high byte first (20_memory.md R63). -/
def wordOfBytes (hi lo : Byte) : Word := hi ++ lo

/-- The bytes of a word in the order they lie in memory (R63, R90). -/
def bytesOfWord (op : Word) : Byte × Byte := (op.extractLsb 15 8, op.extractLsb 7 0)

/-- The decoder on bytes: total, the instruction and the bytes after it, or the reason by name. -/
def decode : List Byte → Except DecodeError (Instr × List Byte)
  | hi :: lo :: rest => .ok (decodeWord (wordOfBytes hi lo), rest)
  | [_] => .error .truncated
  | [] => .error .truncated

/-- The word of an opcode-table row whose `nbits` low bits are `w`; the bits above are zero. -/
def tableWord (nbits w : Nat) : Word := BitVec.ofNat 16 (w % 2 ^ nbits)

/-- What the decoder reads from the bytes of a table word laid out as memory holds them. -/
def decodeTableWord (nbits w : Nat) : Option Instr :=
  match decode [(bytesOfWord (tableWord nbits w)).1, (bytesOfWord (tableWord nbits w)).2] with
  | .ok (i, _) => some i
  | .error _ => none

/-! ### The opcode table, R101 -/

/-- One row of the opcode map: a word `op` is the instruction when `op AND mask` = `value`. -/
structure OpRow where
  mnemonic : String
  mask : Word
  value : Word
  deriving DecidableEq, Repr

/-- Whether a word is an instance of the row. -/
def OpRow.selects (r : OpRow) (op : Word) : Bool := op &&& r.mask == r.value

/-- The 34 instruction rows of R101, in its order. -/
def opcodeTable : List OpRow :=
  [⟨"CLS", 0xF00F, 0x0000⟩, ⟨"RET", 0xF00F, 0x000E⟩, ⟨"JP_nnn", 0xF000, 0x1000⟩, ⟨"CALL_nnn", 0xF000, 0x2000⟩,
   ⟨"SE_Vx__kk", 0xF000, 0x3000⟩, ⟨"SNE_Vx__kk", 0xF000, 0x4000⟩, ⟨"SE_Vx__Vy", 0xF000, 0x5000⟩,
   ⟨"LD_Vx__kk", 0xF000, 0x6000⟩, ⟨"ADD_Vx__kk", 0xF000, 0x7000⟩] ++
  [⟨"LD_Vx__Vy", 0xF00F, 0x8000⟩, ⟨"OR_Vx__Vy", 0xF00F, 0x8001⟩, ⟨"AND_Vx__Vy", 0xF00F, 0x8002⟩,
   ⟨"XOR_Vx__Vy", 0xF00F, 0x8003⟩, ⟨"ADD_Vx__Vy", 0xF00F, 0x8004⟩, ⟨"SUB_Vx__Vy", 0xF00F, 0x8005⟩,
   ⟨"SHR_Vx", 0xF00F, 0x8006⟩, ⟨"SUBN_Vx__Vy", 0xF00F, 0x8007⟩, ⟨"SHL_Vx", 0xF00F, 0x800E⟩] ++
  [⟨"SNE_Vx__Vy", 0xF000, 0x9000⟩, ⟨"LD_I__nnn", 0xF000, 0xA000⟩, ⟨"JP_V0__nnn", 0xF000, 0xB000⟩,
   ⟨"RND_Vx__kk", 0xF000, 0xC000⟩, ⟨"DRW_Vx__Vy__n", 0xF000, 0xD000⟩, ⟨"SKP_Vx", 0xF00F, 0xE00E⟩,
   ⟨"SKNP_Vx", 0xF00F, 0xE001⟩] ++
  [⟨"LD_Vx__DT", 0xF0FF, 0xF007⟩, ⟨"LD_Vx__K", 0xF0FF, 0xF00A⟩, ⟨"LD_DT__Vx", 0xF0FF, 0xF015⟩,
   ⟨"LD_ST__Vx", 0xF0FF, 0xF018⟩, ⟨"ADD_I__Vx", 0xF0FF, 0xF01E⟩, ⟨"LD_F__Vx", 0xF0FF, 0xF029⟩,
   ⟨"LD_B__Vx", 0xF0FF, 0xF033⟩, ⟨"LD__I___Vx", 0xF0FF, 0xF055⟩, ⟨"LD_Vx___I", 0xF0FF, 0xF065⟩]

/-- A word that matches no instruction row: "any other" of R101, the no-op of R99 and R126. -/
def unmapped (op : Word) : Bool := opcodeTable.all fun r => !r.selects op

/-! ### The encoder, R93, R101, R105 -/

/-- A word from its four nibbles, most significant first (R91). -/
def wordOfNibbles (f x y n : Nat) : Word := BitVec.ofNat 16 (4096 * f + 256 * x + 16 * y + n)

/-- Format `NNN`: family, then a 12-bit address. -/
def wordNNN (f : Nat) (nnn : Addr) : Word := BitVec.ofNat 16 (4096 * f + nnn.toNat)

/-- Formats `XKK` and `XKB`: family, `X`, then a byte. -/
def wordXKK (f : Nat) (x : RegIx) (kk : Byte) : Word := BitVec.ofNat 16 (4096 * f + 256 * x.val + kk.toNat)

/-- The word of an instruction, ignored bits at the canonical values of R105. -/
def encodeWord : Instr → Word
  | .cls => 0x00E0
  | .ret => 0x00EE
  | .jpNnn nnn => wordNNN 0x1 nnn
  | .callNnn nnn => wordNNN 0x2 nnn
  | .seVxKk x kk => wordXKK 0x3 x kk
  | .sneVxKk x kk => wordXKK 0x4 x kk
  | .seVxVy x y => wordOfNibbles 0x5 x y 0x0
  | .ldVxKk x kk => wordXKK 0x6 x kk
  | .addVxKk x kk => wordXKK 0x7 x kk
  | .ldVxVy x y => wordOfNibbles 0x8 x y 0x0
  | .orVxVy x y => wordOfNibbles 0x8 x y 0x1
  | .andVxVy x y => wordOfNibbles 0x8 x y 0x2
  | .xorVxVy x y => wordOfNibbles 0x8 x y 0x3
  | .addVxVy x y => wordOfNibbles 0x8 x y 0x4
  | .subVxVy x y => wordOfNibbles 0x8 x y 0x5
  | .shrVx x => wordOfNibbles 0x8 x 0x0 0x6
  | .subnVxVy x y => wordOfNibbles 0x8 x y 0x7
  | .shlVx x => wordOfNibbles 0x8 x 0x0 0xE
  | .sneVxVy x y => wordOfNibbles 0x9 x y 0x0
  | .ldINnn nnn => wordNNN 0xA nnn
  | .jpV0Nnn nnn => wordNNN 0xB nnn
  | .rndVxKk x kk => wordXKK 0xC x kk
  | .drwVxVyN x y n => wordOfNibbles 0xD x y n
  | .skpVx x => wordXKK 0xE x 0x9E
  | .sknpVx x => wordXKK 0xE x 0xA1
  | .ldVxDt x => wordXKK 0xF x 0x07
  | .ldVxK x => wordXKK 0xF x 0x0A
  | .ldDtVx x => wordXKK 0xF x 0x15
  | .ldStVx x => wordXKK 0xF x 0x18
  | .addIVx x => wordXKK 0xF x 0x1E
  | .ldFVx x => wordXKK 0xF x 0x29
  | .ldBVx x => wordXKK 0xF x 0x33
  | .ldMemVx x => wordXKK 0xF x 0x55
  | .ldVxMem x => wordXKK 0xF x 0x65
  | .nop w => w

/-- The bytes of an instruction as they lie in memory. -/
def encode (i : Instr) : List Byte := [(bytesOfWord (encodeWord i)).1, (bytesOfWord (encodeWord i)).2]

end Sys2Proof
end

