-- ==== Sys2Proof/Config.lean ====
section
/-! DEFINITION. What the spec leaves OPEN (00_scope.md R6): the random draw and the width of a framebuffer cell.
Both are constants without a body, so no proof can learn a value of them. -/

namespace Sys2Proof.Config

/-- The `n`-th random draw (10_state.md R34): a free 8-bit input under no law. FREE VALUE, log 3. -/
opaque draw : Nat → BitVec 8

/-- `FB_CELL_WIDTH` = W (R6, 10_state.md R32): the width of a framebuffer cell, at least one bit. OPEN, log 7. -/
opaque fbCellWidth : PNat

end Sys2Proof.Config
end

