-- ==== Sys2Proof/Machine/State.lean ====
section
/-! DEFINITION. The state of the core (10_state.md R20), the fault register, the reasons a step can stop (none of
them is ever given), and the state after reset (R41, 70_reset_and_hazards.md R290). -/

namespace Sys2Proof.Machine

/-- The bytes of memory that differ from their reset value, by strictly rising address (log 8). -/
abbrev Memory := List Host.Cell

/-- The framebuffer, one bit per cell: bit `c` is set when cell `c` is lit (R32, R33, log 6). -/
abbrev Framebuffer := BitVec 2048

/-- The fault causes (60_exceptions.md R251); `none` stands while no fault is recorded. -/
inductive FaultCause where
  | none
  | fetchOutOfRange
  | stackOverflow
  | stackUnderflow
  | memReadOutOfRange
  | memWriteOutOfRange
  | keyIndexOutOfRange
  | framebufferOutOfRange
  deriving DecidableEq, Repr

/-- The fault register (R35). -/
@[ext]
structure FaultRegister where
  /-- a fault is recorded and the core is halted (R121) -/
  valid : Bool
  /-- its cause; the port shows its code (R251) -/
  cause : FaultCause
  /-- the address of the faulting instruction -/
  pc : Word
  /-- what R251 records for the cause -/
  info : Word
  deriving DecidableEq, Repr

/-- The whole state of the core (R20) and the model's own count of random draws. -/
@[ext]
structure State where
  /-- `x[0]` to `x[15]`, V0 to VF (R21) -/
  regs : Vector Byte 16
  /-- the program counter (R24) -/
  pc : Word
  /-- the index register `I` (R27) -/
  index : Word
  /-- the call stack's slots (R28) -/
  stack : Vector Word 16
  /-- the stack pointer, 0 to 16 (R29) -/
  sp : Fin 17
  /-- the delay timer (R30) -/
  dt : Byte
  /-- the sound timer (R30) -/
  st : Byte
  /-- the keypad flags as the host last drove them, bit `k` is key `k` (R31, R39) -/
  keys : BitVec 16
  /-- the framebuffer (R32) -/
  fb : Framebuffer
  /-- the 4096 bytes of memory (R36) -/
  mem : Memory
  /-- the fault register (R35) -/
  fault : FaultRegister
  /-- THE MODEL'S OWN: how many random draws were taken (R34, log 3) -/
  draws : Nat
  deriving DecidableEq, Repr

/-- Reasons for a step to stop with a fault of the model: none. Every fault of the spec is a recorded fault, which
is a next state (R252, log 21). -/
inductive Fault where
  deriving DecidableEq, Repr

/-- Reasons to refuse an instruction. -/
inductive Refusal where
  /-- The instruction with this mnemonic has no meaning yet. Raised only by an arm of `exec` that has none, and no
  such arm is left. SAFE: the machine stops where the hardware goes on. -/
  | notModelled (mnemonic : String)
  deriving DecidableEq, Repr

/-- What a meaning and a step answer. -/
abbrev Result := Host.Outcome State Fault Refusal

/-- The fault register with no fault recorded (R41). -/
def FaultRegister.clear : FaultRegister := { valid := false, cause := .none, pc := 0, info := 0 }

/-- The state after reset (R41, R290): `pc` at 0x200, everything else zero, memory at its reset contents (nothing
listed). The key flags are inputs and not reset; here no key is down (log 2). -/
def State.reset : State where
  regs := Vector.replicate 16 0
  pc := 0x200
  index := 0
  stack := Vector.replicate 16 0
  sp := 0
  dt := 0
  st := 0
  keys := 0
  fb := 0
  mem := []
  fault := FaultRegister.clear
  draws := 0

end Sys2Proof.Machine
end

