-- ==== Sys2Proof/Machine/Memory.lean ====
section
/-! DEFINITION. The 4096-byte memory (20_memory.md): its reset contents with the font (R61, R62), reads and writes of
one byte (R75), and runs of bytes in ascending order (R64). Everything is total; out of range nothing is observed. -/

namespace Sys2Proof.Machine

/-- The 16 glyphs of 5 bytes, digit 0 to digit F (R62). -/
def glyphs : List (List Byte) :=
  [[0xF0, 0x90, 0x90, 0x90, 0xF0], [0x20, 0x60, 0x20, 0x20, 0x70], [0xF0, 0x10, 0xF0, 0x80, 0xF0],
   [0xF0, 0x10, 0xF0, 0x10, 0xF0], [0x90, 0x90, 0xF0, 0x10, 0x10], [0xF0, 0x80, 0xF0, 0x10, 0xF0],
   [0xF0, 0x80, 0xF0, 0x90, 0xF0], [0xF0, 0x10, 0x20, 0x40, 0x40]] ++
  [[0xF0, 0x90, 0xF0, 0x90, 0xF0], [0xF0, 0x90, 0xF0, 0x10, 0xF0], [0xF0, 0x90, 0xF0, 0x90, 0x90],
   [0xE0, 0x90, 0xE0, 0x90, 0xE0], [0xF0, 0x80, 0x80, 0x80, 0xF0], [0xE0, 0x90, 0x90, 0x90, 0xE0],
   [0xF0, 0x80, 0xF0, 0x80, 0xF0], [0xF0, 0x80, 0xF0, 0x80, 0x80]]

/-- What an address that memory does not list reads as: its contents after reset (10_state.md R41), the font at
0x050 to 0x09F and zero elsewhere. -/
def Memory.initial (a : Nat) : Byte :=
  if a < 0x050 then 0 else glyphs.flatten.getD (a - 0x050) 0

/-- `MemRead(a, 1)` (R75). -/
def Memory.read : Memory → Nat → Byte
  | [], a => Memory.initial a
  | c :: rest, a => if c.1 = a then c.2 else Memory.read rest a

/-- A memory without any entry for the address. -/
def Memory.erase (m : Memory) (a : Nat) : Memory := m.filter fun c => c.1 != a

/-- An entry put before the first one of a higher address. -/
def Memory.insert (a : Nat) (v : Byte) : Memory → Memory
  | [] => [(a, v)]
  | c :: rest => if a < c.1 then (a, v) :: c :: rest else c :: Memory.insert a v rest

/-- `MemWrite(a, 1, v)` (R75), in canonical form; outside memory nothing is written (no rule does so, log 8). -/
def Memory.write (m : Memory) (a : Nat) (v : Byte) : Memory :=
  if 0xFFF < a then m
  else if v = Memory.initial a then m.erase a
  else Memory.insert a v (m.erase a)

/-- The `n` bytes from `a`, ascending (R64). -/
def Memory.readBytes (m : Memory) (a : Nat) : Nat → List Byte
  | 0 => []
  | n + 1 => m.read a :: m.readBytes (a + 1) n

/-- Bytes written from `a` on, ascending (R64). -/
def Memory.writeBytes (m : Memory) (a : Nat) : List Byte → Memory
  | [] => m
  | v :: vs => Memory.writeBytes (m.write a v) (a + 1) vs

/-- The canonical form: addresses strictly rising and inside memory, no entry equal to its reset value. -/
abbrev Memory.wf (m : Memory) : Prop :=
  m.Pairwise (fun c d => c.1 < d.1) ∧ ∀ c ∈ m, c.1 ≤ 0xFFF ∧ c.2 ≠ Memory.initial c.1

end Sys2Proof.Machine
end

