-- ==== Sys2Proof/Machine/Ops.lean ====
section
/-! DEFINITION. The named operations over the state: registers, program counter, stack, timers, and taking a fault
(60_exceptions.md R252), which every faulting rule shares. -/

namespace Sys2Proof.Machine

/-- The number of register VF, the flag (10_state.md R22). -/
def flagReg : RegIx := 0xF

/-- `x[i]` (R9, R21). -/
def State.reg (s : State) (x : RegIx) : Byte := s.regs[x.val]

/-- `x[i] <- v` (R9). -/
def State.setReg (s : State) (x : RegIx) (v : Byte) : State := { s with regs := s.regs.set x.val v }

/-- All general registers at once. -/
def State.setRegs (s : State) (v : Vector Byte 16) : State := { s with regs := v }

/-- `pc <- t` (R9). -/
def State.setPc (s : State) (t : Word) : State := { s with pc := t }

/-- `I <- v` (R9). -/
def State.setIndex (s : State) (v : Word) : State := { s with index := v }

/-- `dt <- v` (R9). -/
def State.setDt (s : State) (v : Byte) : State := { s with dt := v }

/-- `st <- v` (R9). -/
def State.setSt (s : State) (v : Byte) : State := { s with st := v }

/-- The framebuffer replaced. -/
def State.setFb (s : State) (f : Framebuffer) : State := { s with fb := f }

/-- Memory replaced. -/
def State.setMem (s : State) (m : Memory) : State := { s with mem := m }

/-- The draw of a random byte is used up (R34). -/
def State.useDraw (s : State) : State := { s with draws := s.draws + 1 }

/-- `key[k]` (R31). -/
def State.key (s : State) (k : Nat) : Bool := s.keys.getLsbD k

/-! ### Program counter -/

/-- The cycle's advance, `pc <- (pc + 2) mod 65536` (40_cycle_driver.md R120, R123). -/
def State.advance (s : State) : State := s.setPc (s.pc + 2)

/-- A skip advances `pc` by 2 more if its condition holds (41_control_flow.md R148). -/
def State.skipIf (s : State) (c : Bool) : State := if c then s.setPc (s.pc + 2) else s

/-- The address of the instruction whose handler runs: the handler's `pc` is already advanced by 2 (R123). -/
def State.handlerAddress (s : State) : Word := s.pc - 2

/-! ### Stack -/

/-- A push: none when all 16 slots are in use (R28, R29). -/
def State.push (s : State) (v : Word) : Option State :=
  if h : s.sp.val < 16 then
    some { s with stack := s.stack.set s.sp.val v, sp := ⟨s.sp.val + 1, Nat.succ_lt_succ h⟩ }
  else none

/-- A pop: none when no slot is in use; the popped slot keeps its value (R28, R29). -/
def State.pop (s : State) : Option (Word × State) :=
  if 0 < s.sp.val then
    some (s.stack[s.sp.val - 1], { s with sp := ⟨s.sp.val - 1, by omega⟩ })
  else none

/-! ### Timers -/

/-- One tick of one timer: down by one, clamped at 0 (R30, R125). -/
def tickTimer (t : Byte) : Byte := if t = 0 then 0 else t - 1

/-- The tick of a cycle: both timers, independently (R125). -/
def State.tick (s : State) : State := (s.setDt (tickTimer s.dt)).setSt (tickTimer s.st)

/-! ### Taking a fault -/

/-- The code of a cause (R251), as the fault port shows it. -/
def FaultCause.code : FaultCause → BitVec 4
  | .none => 0
  | .fetchOutOfRange => 1
  | .stackOverflow => 2
  | .stackUnderflow => 3
  | .memReadOutOfRange => 4
  | .memWriteOutOfRange => 5
  | .keyIndexOutOfRange => 6
  | .framebufferOutOfRange => 7

/-- Fault entry (R252) for the instruction at `a`: `pc` is `a` again, the fault register records the cause, `a` and
`info`, and nothing else changes. Every check comes before the handler's writes (00_scope.md R10), so the advance
of `pc` is all there is to undo. There is no return from a fault (R263); reset clears it. -/
def State.raiseAt (s : State) (a : Word) (c : FaultCause) (info : Word) : State :=
  { s with pc := a, fault := { valid := true, cause := c, pc := a, info := info } }

/-- `raise F(info)` inside a handler (R9, R252). -/
def State.raise (s : State) (c : FaultCause) (info : Word) : State := s.raiseAt s.handlerAddress c info

/-! ### The parts of a cycle, 40_cycle_driver.md R120 -/

/-- Halted: a fault is recorded (R121). -/
def State.halted (s : State) : Bool := s.fault.valid

/-- Whether the fetch finds both bytes in memory (R122). -/
def State.fetchable (s : State) : Bool := decide (s.pc.toNat ≤ 0x0FFE)

/-- The word at `pc`, high byte first (R63, R122). -/
def State.fetchWord (s : State) : Word := wordOfBytes (s.mem.read s.pc.toNat) (s.mem.read (s.pc.toNat + 1))

/-- The fault of a fetch past memory (R122, 60_exceptions.md R253); the advance has not happened yet. -/
def State.fetchFault (s : State) : State := s.raiseAt s.pc .fetchOutOfRange s.pc

/-- The end of a cycle: the tick, unless the handler raised (R120, R125, R252 (c)). The cycle began with no fault
recorded, so a recorded one was raised in it. -/
def State.endCycle (t : State) : State := if t.fault.valid then t else t.tick

/-- A word stored where the next fetch reads it, high byte first (R63). -/
def State.placeWord (s : State) (w : Word) : State :=
  s.setMem (s.mem.writeBytes s.pc.toNat [(bytesOfWord w).1, (bytesOfWord w).2])

end Sys2Proof.Machine
end

