-- ==== Sys2Proof/Machine/Flags.lean ====
section
/-! DEFINITION. The flag computations of the five flag instructions (42_alu.md R166 to R170, R172), and the order of
the two writes they share (R173). -/

namespace Sys2Proof.Machine

/-- A flag as the value of register 0xF. -/
def flagByte (c : Bool) : Byte := if c then 1 else 0

/-- add-with-carry: the true sum is above 255 (R166). -/
def carryFlag (a b : Byte) : Bool := decide (255 < a.toNat + b.toNat)

/-- sub-with-borrow of minuend `a`: `a > b`, strictly (R167, R172). -/
def greaterFlag (a b : Byte) : Bool := decide (b.toNat < a.toNat)

/-- shift-right: the bit shifted out, bit 0 (R168). -/
def lowBit (a : Byte) : Bool := a.getLsbD 0

/-- shift-left: the bit shifted out, bit 7 (R170). -/
def highBit (a : Byte) : Bool := a.getLsbD 7

/-- Register 0xF gets the flag, then register `x` gets the result (R173): with `x` = 0xF the result stays. The flag
and the result are values already, computed from the operands as they were. -/
def State.flagThenResult (s : State) (c : Bool) (x : RegIx) (v : Byte) : State :=
  (s.setReg flagReg (flagByte c)).setReg x v

end Sys2Proof.Machine
end

