-- ==== Sys2Proof/Machine/Alu.lean ====
section
/-! DEFINITION. Family 42: register loads, the nine ALU operations and random (42_alu.md). Arithmetic is unsigned and
wraps mod 256 (R172). -/

namespace Sys2Proof.Machine

/-- `LD Vx, kk` (R160). -/
def execLdVxKk (x : RegIx) (kk : Byte) (s : State) : Result := .next (s.setReg x kk)

/-- `ADD Vx, kk` (R161): wraps, no flag. -/
def execAddVxKk (x : RegIx) (kk : Byte) (s : State) : Result := .next (s.setReg x (s.reg x + kk))

/-- `LD Vx, Vy` (R162). -/
def execLdVxVy (x y : RegIx) (s : State) : Result := .next (s.setReg x (s.reg y))

/-- `OR Vx, Vy` (R163): register 0xF is not reset. -/
def execOrVxVy (x y : RegIx) (s : State) : Result := .next (s.setReg x (s.reg x ||| s.reg y))

/-- `AND Vx, Vy` (R164). -/
def execAndVxVy (x y : RegIx) (s : State) : Result := .next (s.setReg x (s.reg x &&& s.reg y))

/-- `XOR Vx, Vy` (R165): exclusive or (90_conflicts.md C3, log 22). -/
def execXorVxVy (x y : RegIx) (s : State) : Result := .next (s.setReg x (s.reg x ^^^ s.reg y))

/-- `ADD Vx, Vy` (R166). -/
def execAddVxVy (x y : RegIx) (s : State) : Result :=
  .next (s.flagThenResult (carryFlag (s.reg x) (s.reg y)) x (s.reg x + s.reg y))

/-- `SUB Vx, Vy` (R167): the flag is strict. -/
def execSubVxVy (x y : RegIx) (s : State) : Result :=
  .next (s.flagThenResult (greaterFlag (s.reg x) (s.reg y)) x (s.reg x - s.reg y))

/-- `SHR Vx` (R168): register `Y` is ignored. -/
def execShrVx (x : RegIx) (s : State) : Result :=
  .next (s.flagThenResult (lowBit (s.reg x)) x (s.reg x >>> 1))

/-- `SUBN Vx, Vy` (R169). -/
def execSubnVxVy (x y : RegIx) (s : State) : Result :=
  .next (s.flagThenResult (greaterFlag (s.reg y) (s.reg x)) x (s.reg y - s.reg x))

/-- `SHL Vx` (R170): register `Y` is ignored. -/
def execShlVx (x : RegIx) (s : State) : Result :=
  .next (s.flagThenResult (highBit (s.reg x)) x (s.reg x <<< 1))

/-- `RND Vx, kk` (R171): one draw of the random source, a free value (log 3). -/
def execRndVxKk (x : RegIx) (kk : Byte) (s : State) : Result :=
  .next ((s.setReg x (Config.draw s.draws &&& kk)).useDraw)

end Sys2Proof.Machine
end

