-- ==== Sys2Proof/Machine/Operands.lean ====
section
/-! DEFINITION. How operands are used: immediates widened with zeros (30_encoding.md R102), the one addressing mode
`I + k` as an unbounded integer with its range check (43_index_memory.md R196, 20_memory.md R66, R67), and the first
pressed key (45_keypad_timers.md R232). -/

namespace Sys2Proof.Machine

/-- `zext_16` of a 12-bit address (R9, R102). -/
def zextAddr (nnn : Addr) : Word := nnn.setWidth 16

/-- `zext_16` of a byte (R9). -/
def zextByte (v : Byte) : Word := v.setWidth 16

/-- The effective address `I + k`, an unbounded integer (R67, R196). -/
def State.effAddr (s : State) (k : Nat) : Nat := s.index.toNat + k

/-- Whether the `len` bytes from `I` on lie in memory: `len` = 0 or `I + len - 1 <= 0xFFF` (R67). -/
def State.inRange (s : State) (len : Nat) : Bool := len == 0 || decide (s.effAddr (len - 1) ≤ 0xFFF)

/-- `max(I, 0x1000)`: the lowest address out of range, the `info` of a memory fault (60_exceptions.md R251). -/
def State.lowestOutside (s : State) : Word := BitVec.ofNat 16 (max s.index.toNat 0x1000)

/-- The first `n` general registers, `x[0]` to `x[n - 1]` (R194). -/
def State.firstRegs (s : State) (n : Nat) : List Byte := s.regs.toList.take n

/-- The registers after `x[i] <- mem[I + i]` for every `i` below `n` (R195); `I` and memory do not change meanwhile. -/
def State.loadedRegs (s : State) (n : Nat) : Vector Byte 16 :=
  Vector.ofFn fun i => if i.val < n then s.mem.read (s.effAddr i.val) else s.reg i

/-- The least pressed key, scanning 0 to 15 in ascending order (R232). -/
def State.firstKey (s : State) : Option Nat := (List.range 16).find? s.key

/-- The digits of a byte, hundreds, tens, ones (R193). -/
def bcdDigits (v : Byte) : List Byte :=
  [BitVec.ofNat 8 (v.toNat / 100), BitVec.ofNat 8 (v.toNat / 10 % 10), BitVec.ofNat 8 (v.toNat % 10)]

end Sys2Proof.Machine
end

