-- ==== Sys2Proof/Machine/ControlFlow.lean ====
section
/-! DEFINITION. Family 41: return, jump, call, the four skips, jump-with-offset (41_control_flow.md). -/

namespace Sys2Proof.Machine

/-- `RET` (R140). -/
def execRet (s : State) : Result :=
  match s.pop with
  | none => .next (s.raise .stackUnderflow 0)
  | some (target, t) => .next (t.setPc target)

/-- `JP nnn` (R141). -/
def execJpNnn (nnn : Addr) (s : State) : Result := .next (s.setPc (zextAddr nnn))

/-- `CALL nnn` (R142): pushes the advanced `pc`. -/
def execCallNnn (nnn : Addr) (s : State) : Result :=
  match s.push s.pc with
  | none => .next (s.raise .stackOverflow 16)
  | some t => .next (t.setPc (zextAddr nnn))

/-- `SE Vx, kk` (R143). -/
def execSeVxKk (x : RegIx) (kk : Byte) (s : State) : Result := .next (s.skipIf (s.reg x == kk))

/-- `SNE Vx, kk` (R144). -/
def execSneVxKk (x : RegIx) (kk : Byte) (s : State) : Result := .next (s.skipIf (s.reg x != kk))

/-- `SE Vx, Vy` (R145). -/
def execSeVxVy (x y : RegIx) (s : State) : Result := .next (s.skipIf (s.reg x == s.reg y))

/-- `SNE Vx, Vy` (R146). -/
def execSneVxVy (x y : RegIx) (s : State) : Result := .next (s.skipIf (s.reg x != s.reg y))

/-- `JP V0, nnn` (R147): the offset register is always register 0. -/
def execJpV0Nnn (nnn : Addr) (s : State) : Result := .next (s.setPc (zextAddr nnn + zextByte (s.reg 0)))

end Sys2Proof.Machine
end

