-- ==== Sys2Proof/Machine/Display.lean ====
section
/-! DEFINITION. Family 44: clear-display and the XOR blitter with its collision detector (44_display.md). -/

namespace Sys2Proof.Machine

/-- Whether cell `c` is lit. -/
def Framebuffer.lit (f : Framebuffer) (c : Nat) : Bool := f.getLsbD c

/-- `fb[c] <- fb[c] XOR LIT` (R211): lit becomes unlit and unlit becomes lit. -/
def Framebuffer.toggle (f : Framebuffer) (c : Nat) : Framebuffer := f ^^^ BitVec.twoPow 2048 c

/-- The cells of the set bits of one sprite row whose column 0 is cell `start`: column `c` is bit `7 - c`, columns
ascending (R211, R213). -/
def rowCells (start : Nat) (b : Byte) : List Nat :=
  ((List.range 8).filter fun c => b.getLsbD (7 - c)).map fun c => start + c

/-- The cells of all set bits of the rows from row `r` on, in scan order: cell `64 * (py + r) + (px + c)`, with no
modulo (R211, R212). -/
def spriteCells (px py : Nat) : Nat → List Byte → List Nat
  | _, [] => []
  | r, b :: rows => rowCells (64 * (py + r) + px) b ++ spriteCells px py (r + 1) rows

/-- The toggle loop of R211: the collision flag so far and the framebuffer so far. -/
def toggleCells : List Nat → Bool → Framebuffer → Bool × Framebuffer
  | [], collision, f => (collision, f)
  | c :: rest, collision, f => toggleCells rest (collision || f.lit c) (f.toggle c)

/-- The cells a draw toggles, from the state it begins in: the start position is reduced, nothing else (R211). -/
def State.drawCells (s : State) (x y : RegIx) (n : Nat) : List Nat :=
  spriteCells ((s.reg x).toNat % 64) ((s.reg y).toNat % 32) 0 (s.mem.readBytes (s.effAddr 0) n)

/-- `CLS` (R210): the framebuffer is cleared, memory is not touched (90_conflicts.md C4, log 22). -/
def execCls (s : State) : Result := .next (s.setFb 0)

/-- `DRW Vx, Vy, n` (R211): the memory check first, then the first cell past the last one (60_exceptions.md R261),
then the toggles and the flag. -/
def execDrwVxVyN (x y : RegIx) (n : Fin 16) (s : State) : Result :=
  if s.inRange n.val then
    match (s.drawCells x y n.val).find? fun c => decide (2047 < c) with
    | some c => .next (s.raise .framebufferOutOfRange (BitVec.ofNat 16 c))
    | none =>
      .next ((s.setFb (toggleCells (s.drawCells x y n.val) false s.fb).2).setReg flagReg
        (flagByte (toggleCells (s.drawCells x y n.val) false s.fb).1))
  else .next (s.raise .memReadOutOfRange s.lowestOutside)

end Sys2Proof.Machine
end

