-- ==== Sys2Proof/Machine/IndexMemory.lean ====
section
/-! DEFINITION. Family 43: the index register, BCD-store, block-store and block-load (43_index_memory.md). No memory
instruction changes `I` (R197). -/

namespace Sys2Proof.Machine

/-- `LD I, nnn` (R190). -/
def execLdINnn (nnn : Addr) (s : State) : Result := .next (s.setIndex (zextAddr nnn))

/-- `ADD I, Vx` (R191): wraps at 16 bits, no flag. -/
def execAddIVx (x : RegIx) (s : State) : Result := .next (s.setIndex (s.index + zextByte (s.reg x)))

/-- `LD F, Vx` (R192): the whole register value, not its low nibble. -/
def execLdFVx (x : RegIx) (s : State) : Result := .next (s.setIndex (0x0050 + 5 * zextByte (s.reg x)))

/-- `LD B, Vx` (R193). -/
def execLdBVx (x : RegIx) (s : State) : Result :=
  if s.inRange 3 then .next (s.setMem (s.mem.writeBytes (s.effAddr 0) (bcdDigits (s.reg x))))
  else .next (s.raise .memWriteOutOfRange s.lowestOutside)

/-- `LD [I], Vx` (R194): stores the first `x` registers; register `x` itself is not stored. -/
def execLdMemVx (x : Fin 16) (s : State) : Result :=
  if s.inRange x.val then .next (s.setMem (s.mem.writeBytes (s.effAddr 0) (s.firstRegs x.val)))
  else .next (s.raise .memWriteOutOfRange s.lowestOutside)

/-- `LD Vx, [I]` (R195): loads the first `x` registers; register `x` itself is not loaded. -/
def execLdVxMem (x : Fin 16) (s : State) : Result :=
  if s.inRange x.val then .next (s.setRegs (s.loadedRegs x.val))
  else .next (s.raise .memReadOutOfRange s.lowestOutside)

end Sys2Proof.Machine
end

