-- ==== Sys2Proof/Machine/KeypadTimers.lean ====
section
/-! DEFINITION. Family 45: the key skips, wait-for-key and the timer moves (45_keypad_timers.md). -/

namespace Sys2Proof.Machine

/-- A key skip (R230, R231): the index is the whole register value; above 15 it faults; else skip if the flag of that
key is `pressed`. -/
def State.keySkip (s : State) (x : RegIx) (pressed : Bool) : State :=
  if 15 < (s.reg x).toNat then s.raise .keyIndexOutOfRange (zextByte (s.reg x))
  else s.skipIf (s.key (s.reg x).toNat == pressed)

/-- `SKP Vx` (R230). -/
def execSkpVx (x : RegIx) (s : State) : Result := .next (s.keySkip x true)

/-- `SKNP Vx` (R231). -/
def execSknpVx (x : RegIx) (s : State) : Result := .next (s.keySkip x false)

/-- `LD Vx, K` (R232): the least pressed key, or back to this same instruction. -/
def execLdVxK (x : RegIx) (s : State) : Result :=
  match s.firstKey with
  | some k => .next (s.setReg x (BitVec.ofNat 8 k))
  | none => .next (s.setPc (s.pc - 2))

/-- `LD Vx, DT` (R233): the value before this cycle's tick. -/
def execLdVxDt (x : RegIx) (s : State) : Result := .next (s.setReg x s.dt)

/-- `LD DT, Vx` (R234): the tick of the same cycle follows. -/
def execLdDtVx (x : RegIx) (s : State) : Result := .next (s.setDt (s.reg x))

/-- `LD ST, Vx` (R235). -/
def execLdStVx (x : RegIx) (s : State) : Result := .next (s.setSt (s.reg x))

end Sys2Proof.Machine
end

