-- ==== Sys2Proof/Machine/Noop.lean ====
section
/-! DEFINITION. Family 40: the no-op handler (40_cycle_driver.md R126). Every meaning runs on the state whose `pc` is
already advanced by 2 (R123); the tick comes after it (R125). -/

namespace Sys2Proof.Machine

/-- `NOP`, any unmapped word (R126): changes nothing. -/
def execNop (_ : Word) (s : State) : Result := .next s

end Sys2Proof.Machine
end

