-- ==== Sys2Proof/Machine/Step.lean ====
section
/-! DEFINITION. One cycle (40_cycle_driver.md R120): halted check, fetch, advance, exactly one handler, tick. -/

namespace Sys2Proof.Machine

/-- `Cycle()` (R120). A halted core steps to itself (R121); a fetch past memory faults (R122); else the word at `pc`
is decoded, its handler runs on the advanced state, and the cycle ends with the tick unless the handler raised. -/
def step (s : State) : Host.Outcome State Fault Refusal :=
  if s.halted then .next s
  else if s.fetchable then
    match exec (decodeWord s.fetchWord) s.advance with
    | .next t => .next t.endCycle
    | .fault f => .fault f
    | .refused r => .refused r
  else .next s.fetchFault

/-- The state with a table word stored where the next step fetches, at `pc` and `pc + 1` (log 1). -/
def State.withFetchWord (s : State) (nbits w : Nat) : State := s.placeWord (tableWord nbits w)

end Sys2Proof.Machine
end

