-- ==== Sys2Proof/Machine/Ports.lean ====
section
/-! DEFINITION. The host's side (10_state.md R39, R40): the logical ports, the host's moves, which fall between cycles
only, and a run as the spec means it, `step` requests with the other moves in between (70_reset_and_hazards.md R302).
The core itself never makes one of the moves. -/

namespace Sys2Proof.Machine

/-- `LIT` = 2^W - 1 (00_scope.md R9). -/
def litCell : BitVec Config.fbCellWidth := BitVec.allOnes Config.fbCellWidth

/-- The presentation read port, `fb_data` = `fb[fb_addr]`: `LIT` or 0 (R32, R33, R39). -/
def State.readCell (s : State) (c : BitVec 11) : BitVec Config.fbCellWidth :=
  if s.fb.lit c.toNat then litCell else 0

/-- The fault port: `fault_valid`, `fault_cause`, `fault_pc`, `fault_info` (R35, R39). -/
def State.faultPort (s : State) : BitVec 1 × BitVec 4 × Word × Word :=
  (BitVec.ofBool s.fault.valid, s.fault.cause.code, s.fault.pc, s.fault.info)

/-- The reset request (70_reset_and_hazards.md R290): every piece of state at its reset value; the key flags are the
host's and are not touched, and the random source goes on (log 18). -/
def State.resetRequest (s : State) : State := { State.reset with keys := s.keys, draws := s.draws }

/-- The loader port: one byte, any address (20_memory.md R76). -/
def State.loaderWrite (s : State) (a : Addr) (v : Byte) : State := s.setMem (s.mem.write a.toNat v)

/-- The host drives the 16 key flags (R31, R40). -/
def State.driveKeys (s : State) (k : BitVec 16) : State := { s with keys := k }

/-- The loader's use of its port for an image: the `k`-th byte goes to 0x200 + `k` (R76); bytes past 0xFFF cannot be
presented (20_memory.md R79). -/
def State.loadImage (s : State) (image : List Byte) : State := s.setMem (s.mem.writeBytes 0x200 image)

/-- What the host may do between cycles (R40). -/
inductive HostMove where
  /-- (a) request `reset` -/
  | reset
  /-- (b) request `step` -/
  | step
  /-- (c) write any byte of memory through the loader port -/
  | load (a : Addr) (v : Byte)
  /-- (d) change key flags -/
  | keys (k : BitVec 16)
  /-- (e) read a framebuffer cell -/
  | readCell (c : BitVec 11)
  /-- (f) read the fault register -/
  | readFault
  deriving DecidableEq, Repr

/-- The effect of a host move on the core. -/
def State.apply (s : State) (m : HostMove) : Host.Outcome State Fault Refusal :=
  match m with
  | .reset => .next s.resetRequest
  | .step => Sys2Proof.Machine.step s
  | .load a v => .next (s.loaderWrite a v)
  | .keys k => .next (s.driveKeys k)
  | .readCell _ => .next s
  | .readFault => .next s

/-- A run: the host's moves, one after another (40_cycle_driver.md R129, 70_reset_and_hazards.md R302). -/
def State.drive (s : State) : List HostMove → Host.Outcome State Fault Refusal
  | [] => .next s
  | m :: ms =>
    match s.apply m with
    | .next t => t.drive ms
    | .fault f => .fault f
    | .refused r => .refused r

/-- How many cycles a run has: its `step` requests (R302). -/
def stepRequests (ms : List HostMove) : Nat := ms.count .step

end Sys2Proof.Machine
end

