-- ==== Sys2Proof/Safety.lean ====
section
/-! DEFINITION. What counts as a safe run: the ends of a run of 70_reset_and_hazards.md R302, and the shape of the
states a run can be in (10_state.md R26, R44, 60_exceptions.md R251). -/

namespace Sys2Proof.Machine

/-- FAULTED (R302 (a)): never a successful end (60_exceptions.md R262). -/
abbrev State.faulted (s : State) : Prop := s.fault.valid = true

/-- PARKED (R302 (b)): the next instruction is a jump to itself, `0x1000 OR a` at `a`. -/
abbrev State.parked (s : State) : Prop := s.pc.toNat ≤ 0xFFE ∧ s.fetchWord = 0x1000 ||| s.pc

/-- WAITING (R302 (c)): the next instruction is `LD Vx, K` and no key flag is set. -/
abbrev State.waiting (s : State) : Prop :=
  s.pc.toNat ≤ 0xFFE ∧ (∃ x, decodeWord s.fetchWord = .ldVxK x) ∧ s.keys = 0

/-- What R251 lets the fault register hold beside the frozen state: for each cause, the condition it was raised on and
its `info`; with no fault recorded, nothing. -/
def State.faultExplained (s : State) : Prop :=
  match s.fault.cause with
  | .none => s.fault = FaultRegister.clear
  | .fetchOutOfRange => s.fault.valid = true ∧ s.fault.pc = s.pc ∧ 0x0FFE < s.pc.toNat ∧ s.fault.info = s.pc
  | .stackOverflow => s.fault.valid = true ∧ s.fault.pc = s.pc ∧ s.sp = 16 ∧ s.fault.info = 16
  | .stackUnderflow => s.fault.valid = true ∧ s.fault.pc = s.pc ∧ s.sp = 0 ∧ s.fault.info = 0
  | .memReadOutOfRange =>
    s.fault.valid = true ∧ s.fault.pc = s.pc ∧ s.fault.info.toNat = max s.index.toNat 0x1000
  | .memWriteOutOfRange =>
    s.fault.valid = true ∧ s.fault.pc = s.pc ∧ s.fault.info.toNat = max s.index.toNat 0x1000
  | .keyIndexOutOfRange => s.fault.valid = true ∧ s.fault.pc = s.pc ∧ ∃ x, s.fault.info.toNat = (s.reg x).toNat ∧
    15 < (s.reg x).toNat
  | .framebufferOutOfRange => s.fault.valid = true ∧ s.fault.pc = s.pc ∧ 2048 ≤ s.fault.info.toNat ∧
    s.fault.info.toNat ≤ 2950

/-- The invariant of every run: memory in canonical form; `pc` where R26 says it can be; no return address above
0x1000 on the stack; the fault register telling the truth. -/
structure State.Inv (s : State) : Prop where
  memory : s.mem.wf
  pc : s.pc.toNat ≤ 0x10FE
  stack : ∀ k : Fin 16, s.stack[k.val].toNat ≤ 0x1000
  fault : s.faultExplained

/-- `t` is a state after a run of `n` cycles from `s`: `n` `step` requests with some host moves in between (R302). -/
def runReaches (n : Nat) (s t : State) : Prop := ∃ ms, stepRequests ms = n ∧ s.drive ms = .next t

/-- A safe run: after each of its moves the run has gone through and no fault is recorded. It says so of every move,
since a reset in between clears a recorded fault (60_exceptions.md R262, R263). -/
def safeRun (ms : List HostMove) (s : State) : Prop := ∀ k, ∃ t, s.drive (ms.take k) = .next t ∧ t.fault.valid = false

end Sys2Proof.Machine
end

