-- ==== Sys2Proof/Certificates/Slice0/Obligations.lean ====
section
/-! DEFINITION. The statements for the provers, from the numbered rules of spec/. Words of a pattern are built here by
plain arithmetic, and results are said in integers, apart from the definitions they speak of. -/

namespace Sys2Proof.Statements

open Sys2Proof.Machine

/-- The word of a pattern of four nibbles, most significant first (30_encoding.md R91). -/
def nibbles (a b c d : Nat) : Word := BitVec.ofNat 16 (0x1000 * a + 0x100 * b + 0x10 * c + d)

/-- The word `fXKK`. -/
def withByte (f : Nat) (x : RegIx) (kk : Byte) : Word := BitVec.ofNat 16 (0x1000 * f + 0x100 * x.val + kk.toNat)

/-- The word `fNNN`. -/
def withAddr (f : Nat) (nnn : Addr) : Word := BitVec.ofNat 16 (0x1000 * f + nnn.toNat)

/-- The table's mnemonic of an instruction (30_encoding.md R101). -/
def mnemonic : Instr → String
  | .cls => "CLS" | .ret => "RET" | .jpNnn _ => "JP_nnn" | .callNnn _ => "CALL_nnn" | .seVxKk _ _ => "SE_Vx__kk"
  | .sneVxKk _ _ => "SNE_Vx__kk" | .seVxVy _ _ => "SE_Vx__Vy" | .ldVxKk _ _ => "LD_Vx__kk"
  | .addVxKk _ _ => "ADD_Vx__kk" | .ldVxVy _ _ => "LD_Vx__Vy" | .orVxVy _ _ => "OR_Vx__Vy"
  | .andVxVy _ _ => "AND_Vx__Vy" | .xorVxVy _ _ => "XOR_Vx__Vy" | .addVxVy _ _ => "ADD_Vx__Vy"
  | .subVxVy _ _ => "SUB_Vx__Vy" | .shrVx _ => "SHR_Vx" | .subnVxVy _ _ => "SUBN_Vx__Vy" | .shlVx _ => "SHL_Vx"
  | .sneVxVy _ _ => "SNE_Vx__Vy" | .ldINnn _ => "LD_I__nnn" | .jpV0Nnn _ => "JP_V0__nnn"
  | .rndVxKk _ _ => "RND_Vx__kk" | .drwVxVyN _ _ _ => "DRW_Vx__Vy__n" | .skpVx _ => "SKP_Vx" | .sknpVx _ => "SKNP_Vx"
  | .ldVxDt _ => "LD_Vx__DT" | .ldVxK _ => "LD_Vx__K" | .ldDtVx _ => "LD_DT__Vx" | .ldStVx _ => "LD_ST__Vx"
  | .addIVx _ => "ADD_I__Vx" | .ldFVx _ => "LD_F__Vx" | .ldBVx _ => "LD_B__Vx" | .ldMemVx _ => "LD__I___Vx"
  | .ldVxMem _ => "LD_Vx___I" | .nop _ => "NOP"

/-- `t` is `s` but for register `x`, which holds `v`: every other register, `pc`, memory and all else is as before. -/
def writesReg (s t : State) (x : RegIx) (v : Byte) : Prop :=
  (∀ z : RegIx, t.reg z = if z = x then v else s.reg z) ∧ t = { s with regs := t.regs }

/-- `t` is `s` but for register `x`, which holds `v`, and register 0xF, which holds the flag unless it is `x`. -/
def writesFlagAndReg (s t : State) (flag : Nat) (x : RegIx) (v : Nat) : Prop :=
  (∀ z : RegIx, (t.reg z).toNat = if z = x then v else if z = 0xF then flag else (s.reg z).toNat) ∧
    t = { s with regs := t.regs }

/-- A cycle that fetches and decodes instruction `i`: the core is not halted and both bytes are in memory. -/
def fetches (s : State) (i : Instr) : Prop :=
  s.fault.valid = false ∧ s.pc.toNat ≤ 0x0FFE ∧ decodeWord s.fetchWord = i

/-- `s` with a fault recorded at its `pc` and nothing else changed (60_exceptions.md R252). -/
def recorded (s : State) (c : FaultCause) (info : Word) : State :=
  { s with fault := { valid := true, cause := c, pc := s.pc, info := info } }

/-- Whether the `len` bytes at `I` are all in memory (20_memory.md R67). -/
def bytesInMemory (s : State) (len : Nat) : Prop := len = 0 ∨ s.index.toNat + len - 1 ≤ 0xFFF

/-- The bit of sprite row `r`, column `c` of a draw at `I` is set (44_display.md R213). -/
def spriteBit (s : State) (r c : Nat) : Prop := (s.mem.read (s.index.toNat + r)).getLsbD (7 - c) = true

/-- The cell of sprite row `r`, column `c` (44_display.md R212). -/
def cellOf (s : State) (x y : RegIx) (r c : Nat) : Nat :=
  64 * ((s.reg y).toNat % 32 + r) + ((s.reg x).toNat % 64 + c)

/-- Cell `k` belongs to a set bit of the `n`-row sprite. -/
def spriteCell (s : State) (x y : RegIx) (n k : Nat) : Prop :=
  ∃ r c, r < n ∧ c < 8 ∧ spriteBit s r c ∧ cellOf s x y r c = k

/-- The handlers of a list of instructions, one cycle's advance before each, while they answer next. -/
def handlers : List Instr → State → Option State
  | [], s => some s
  | i :: is, s =>
    match exec i { s with pc := s.pc + 2 } with
    | .next t => handlers is t
    | .fault _ => none
    | .refused _ => none

/-- Byte `j` of the next word to fetch, high byte first (20_memory.md R63). -/
def fetchedByte (t : State) (j : Nat) : Nat := if j = 0 then t.fetchWord.toNat / 256 else t.fetchWord.toNat % 256

/-- Where an instruction leaves `pc` when its cycle does not fault, `s` being the state the cycle began in
(10_state.md R25). -/
def pcAfter (s : State) : Instr → Word
  | .jpNnn nnn => nnn.setWidth 16
  | .callNnn nnn => nnn.setWidth 16
  | .jpV0Nnn nnn => nnn.setWidth 16 + (s.reg 0).setWidth 16
  | .ret => s.stack[s.sp.val - 1]
  | .seVxKk x kk => if s.reg x = kk then s.pc + 4 else s.pc + 2
  | .sneVxKk x kk => if s.reg x = kk then s.pc + 2 else s.pc + 4
  | .seVxVy x y => if s.reg x = s.reg y then s.pc + 4 else s.pc + 2
  | .sneVxVy x y => if s.reg x = s.reg y then s.pc + 2 else s.pc + 4
  | .skpVx x => if s.keys.getLsbD (s.reg x).toNat then s.pc + 4 else s.pc + 2
  | .sknpVx x => if s.keys.getLsbD (s.reg x).toNat then s.pc + 2 else s.pc + 4
  | .ldVxK _ => if s.keys = 0 then s.pc else s.pc + 2
  | .cls | .ldVxKk _ _ | .addVxKk _ _ | .ldVxVy _ _ | .orVxVy _ _ | .andVxVy _ _ | .xorVxVy _ _ | .addVxVy _ _
  | .subVxVy _ _ | .shrVx _ | .subnVxVy _ _ | .shlVx _ | .ldINnn _ | .rndVxKk _ _ | .drwVxVyN _ _ _ | .ldVxDt _
  | .ldDtVx _ | .ldStVx _ | .addIVx _ | .ldFVx _ | .ldBVx _ | .ldMemVx _ | .ldVxMem _ | .nop _ => s.pc + 2

/-- The general registers an instruction may write (10_state.md R22, R23). -/
def mayWrite (z : RegIx) : Instr → Prop
  | .ldVxKk x _ | .addVxKk x _ | .ldVxVy x _ | .orVxVy x _ | .andVxVy x _ | .xorVxVy x _ | .rndVxKk x _ | .ldVxDt x
  | .ldVxK x => z = x
  | .addVxVy x _ | .subVxVy x _ | .shrVx x | .subnVxVy x _ | .shlVx x => z = x ∨ z = 0xF
  | .drwVxVyN _ _ _ => z = 0xF
  | .ldVxMem x => z < x
  | .cls | .ret | .jpNnn _ | .callNnn _ | .seVxKk _ _ | .sneVxKk _ _ | .seVxVy _ _ | .sneVxVy _ _ | .ldINnn _
  | .jpV0Nnn _ | .skpVx _ | .sknpVx _ | .ldDtVx _ | .ldStVx _ | .addIVx _ | .ldFVx _ | .ldBVx _ | .ldMemVx _
  | .nop _ => False

/-- The instructions whose handler may write `pc` without raising (10_state.md R25): jumps, call, return, the six skips
and wait-for-key. -/
def mayWritePc : Instr → Prop
  | .ret | .jpNnn _ | .callNnn _ | .jpV0Nnn _ | .seVxKk _ _ | .sneVxKk _ _ | .seVxVy _ _ | .sneVxVy _ _ | .skpVx _
  | .sknpVx _ | .ldVxK _ => True
  | .cls | .ldVxKk _ _ | .addVxKk _ _ | .ldVxVy _ _ | .orVxVy _ _ | .andVxVy _ _ | .xorVxVy _ _ | .addVxVy _ _
  | .subVxVy _ _ | .shrVx _ | .subnVxVy _ _ | .shlVx _ | .ldINnn _ | .rndVxKk _ _ | .drwVxVyN _ _ _ | .ldVxDt _
  | .ldDtVx _ | .ldStVx _ | .addIVx _ | .ldFVx _ | .ldBVx _ | .ldMemVx _ | .ldVxMem _ | .nop _ => False

/-- Host moves among which no reset and no loader write stands (10_state.md R40). -/
def noResetNoLoad (ms : List HostMove) : Prop := .reset ∉ ms ∧ ∀ a v, .load a v ∉ ms

end Sys2Proof.Statements

section

open Sys2Proof Sys2Proof.Machine Sys2Proof.Statements

/-! ### Encoding, 30_encoding.md -/

/-- A few words written out from the opcode map decode to their instructions (R101; sanity). -/
def Obligations.WrittenOutWordsDecode : Prop :=
  decodeWord 0b0000000011100000 = .cls ∧ decodeWord 0b0000000011101110 = .ret ∧
  decodeWord 0b0010001000010000 = .callNnn 0x210 ∧ decodeWord 0b1000000100100101 = .subVxVy 1 2 ∧
  decodeWord 0b1101000000010101 = .drwVxVyN 0 1 5 ∧ decodeWord 0b1110000110011110 = .skpVx 1 ∧
  decodeWord 0b1111001101100101 = .ldVxMem 3 ∧ decodeWord 0b1000000000001000 = .nop 0x8008

/-- Every word of every pattern of R101 decodes to its instruction with the operands of R92, whatever the ignored bits
`g`, `h` hold (R100). The family and key values are the spec's decision D2. -/
def Obligations.EveryPatternDecodesToItsInstruction : Prop :=
  ∀ (x y n g h : Fin 16) (kk : Byte) (nnn : Addr),
    (decodeWord (nibbles 0x0 g h 0x0) = .cls ∧ decodeWord (nibbles 0x0 g h 0xE) = .ret ∧
      decodeWord (withAddr 0x1 nnn) = .jpNnn nnn ∧ decodeWord (withAddr 0x2 nnn) = .callNnn nnn ∧
      decodeWord (withByte 0x3 x kk) = .seVxKk x kk ∧ decodeWord (withByte 0x4 x kk) = .sneVxKk x kk ∧
      decodeWord (nibbles 0x5 x y g) = .seVxVy x y ∧ decodeWord (withByte 0x6 x kk) = .ldVxKk x kk ∧
      decodeWord (withByte 0x7 x kk) = .addVxKk x kk) ∧
    (decodeWord (nibbles 0x8 x y 0x0) = .ldVxVy x y ∧ decodeWord (nibbles 0x8 x y 0x1) = .orVxVy x y ∧
      decodeWord (nibbles 0x8 x y 0x2) = .andVxVy x y ∧ decodeWord (nibbles 0x8 x y 0x3) = .xorVxVy x y ∧
      decodeWord (nibbles 0x8 x y 0x4) = .addVxVy x y ∧ decodeWord (nibbles 0x8 x y 0x5) = .subVxVy x y ∧
      decodeWord (nibbles 0x8 x g 0x6) = .shrVx x ∧ decodeWord (nibbles 0x8 x y 0x7) = .subnVxVy x y ∧
      decodeWord (nibbles 0x8 x g 0xE) = .shlVx x) ∧
    (decodeWord (nibbles 0x9 x y g) = .sneVxVy x y ∧ decodeWord (withAddr 0xA nnn) = .ldINnn nnn ∧
      decodeWord (withAddr 0xB nnn) = .jpV0Nnn nnn ∧ decodeWord (withByte 0xC x kk) = .rndVxKk x kk ∧
      decodeWord (nibbles 0xD x y n) = .drwVxVyN x y n ∧ decodeWord (nibbles 0xE x g 0xE) = .skpVx x ∧
      decodeWord (nibbles 0xE x g 0x1) = .sknpVx x) ∧
    (decodeWord (nibbles 0xF x 0x0 0x7) = .ldVxDt x ∧ decodeWord (nibbles 0xF x 0x0 0xA) = .ldVxK x ∧
      decodeWord (nibbles 0xF x 0x1 0x5) = .ldDtVx x ∧ decodeWord (nibbles 0xF x 0x1 0x8) = .ldStVx x ∧
      decodeWord (nibbles 0xF x 0x1 0xE) = .addIVx x ∧ decodeWord (nibbles 0xF x 0x2 0x9) = .ldFVx x ∧
      decodeWord (nibbles 0xF x 0x3 0x3) = .ldBVx x ∧ decodeWord (nibbles 0xF x 0x5 0x5) = .ldMemVx x ∧
      decodeWord (nibbles 0xF x 0x6 0x5) = .ldVxMem x)

/-- The dispatch of R94 to R99 and the mask-and-match rows of R101 are the same decoder: a row selects a word exactly
when the word decodes to that row's instruction, and a word that no row selects is a no-op that keeps the word. -/
def Obligations.DispatchAgreesWithTheOpcodeTable : Prop :=
  ∀ op : Word,
    (∀ r ∈ opcodeTable, op &&& r.mask = r.value ↔ mnemonic (decodeWord op) = r.mnemonic) ∧
    ((∀ r ∈ opcodeTable, op &&& r.mask ≠ r.value) ↔ decodeWord op = .nop op)

/-- No word matches two instruction rows of the opcode table (R101). -/
def Obligations.OpcodeRowsAreDisjoint : Prop :=
  ∀ op : Word, opcodeTable.Pairwise fun r q => ¬(op &&& r.mask = r.value ∧ op &&& q.mask = q.value)

/-- Decoding the encoding of any well-formed instruction gives it back and leaves the bytes after it (R90, R105). -/
def Obligations.DecodeOfEncodeIsTheInstruction : Prop :=
  ∀ (i : Instr) (rest : List Byte), i.wellFormed = true → decode (encode i ++ rest) = .ok (i, rest)

/-- The decoder is total and gives only well-formed instructions (R107). -/
def Obligations.DecodeGivesWellFormedInstructions : Prop :=
  ∀ (hi lo : Byte) (rest : List Byte), ∃ i, decode (hi :: lo :: rest) = .ok (i, rest) ∧ i.wellFormed = true

/-! ### The cycle, 40_cycle_driver.md -/

/-- The cycle (R120 to R125): a halted core does nothing; a fetch past memory faults; else the instruction the two bytes
at `pc` decode to runs on the state with `pc` advanced by 2, and each non-zero timer goes down by one, unless the handler
raised: then the whole cycle is undone but for the fault register. Halting and faulting are the spec's decisions D1 and
D27. -/
def Obligations.StepRunsTheDecodedInstruction : Prop :=
  ∀ s : State,
    (s.fault.valid = true → step s = .next s) ∧
    (s.fault.valid = false → 0x0FFE < s.pc.toNat → step s = .next (recorded s .fetchOutOfRange s.pc)) ∧
    (s.fault.valid = false → s.pc.toNat ≤ 0x0FFE → ∀ i,
      decode [s.mem.read s.pc.toNat, s.mem.read (s.pc.toNat + 1)] = .ok (i, []) →
      ∃ t, exec i { s with pc := s.pc + 2 } = .next t ∧
        (t.fault.valid = false → step s = .next { t with dt := if t.dt = 0 then 0 else t.dt - 1,
                                                         st := if t.st = 0 then 0 else t.st - 1 }) ∧
        (t.fault.valid = true → step s = .next t ∧ { t with fault := s.fault } = s))

/-- The tick (R125): in every cycle that does not fault each timer goes down by exactly one and clamps at 0, and it sees
what the handler left: a timer written with `n` holds `n - 1` after the same cycle, and a read-delay-timer reads the
value before the tick. -/
def Obligations.TimersTickInEveryCycle : Prop :=
  ∀ s t : State, s.fault.valid = false → step s = .next t → t.fault.valid = false →
    (∀ x, decodeWord s.fetchWord = .ldDtVx x → t.dt.toNat = (s.reg x).toNat - 1) ∧
    ((∀ x, decodeWord s.fetchWord ≠ .ldDtVx x) → t.dt.toNat = s.dt.toNat - 1) ∧
    (∀ x, decodeWord s.fetchWord = .ldStVx x → t.st.toNat = (s.reg x).toNat - 1) ∧
    ((∀ x, decodeWord s.fetchWord ≠ .ldStVx x) → t.st.toNat = s.st.toNat - 1) ∧
    (∀ x, decodeWord s.fetchWord = .ldVxDt x → t.reg x = s.dt)

/-- The no-op handler (R126): for every word that matches no row, the handler changes nothing, and the cycle as a whole
only advances `pc` and ticks. -/
def Obligations.UnmappedWordsChangeNothing : Prop :=
  ∀ w : Word, (∀ r ∈ opcodeTable, w &&& r.mask ≠ r.value) →
    (∀ s : State, exec (decodeWord w) s = .next s) ∧ decodeWord w = .nop w ∧
    ∀ s : State, s.fault.valid = false → s.pc.toNat ≤ 0x0FFE → s.fetchWord = w →
      ∃ t, step s = .next t ∧ t = { s with pc := s.pc + 2, dt := t.dt, st := t.st } ∧
        t.dt.toNat = s.dt.toNat - 1 ∧ t.st.toNat = s.st.toNat - 1

/-- The handler of a no-op completes on every state and leaves it as it is (R126; every word, mapped or not). -/
def Obligations.NoOpCompletes : Prop := ∀ (w : Word) (s : State), exec (.nop w) s = .next s

/-- Every state has a next state under `step`: the core never stops (93_implementation_defined.md, after U28). -/
def Obligations.EveryStateHasANextState : Prop := ∀ s : State, ∃ t, step s = .next t

/-- Where every instruction and the no-op leave `pc` in a cycle that fetches (10_state.md R25); a faulting cycle leaves
it where it was. -/
def Obligations.EveryInstructionLeavesPcWhereTheRuleSays : Prop :=
  ∀ s t : State, ∀ i, fetches s i → step s = .next t →
    (t.fault.valid = false → t.pc = pcAfter s i) ∧ (t.fault.valid = true → t.pc = s.pc)

/-- A byte stored by block-store or BCD-store is the byte the next cycle fetches, if `pc` then points at it or at the byte
before it (20_memory.md R73, the spec's decision D26): `j` is 0 for the high byte of the next word and 1 for the low. -/
def Obligations.StoredCodeIsFetchedNext : Prop :=
  ∀ (s t : State) (x : Fin 16) (k j : Nat), s.pc.toNat + 2 ≤ 0x0FFE → step s = .next t → t.fault.valid = false → j < 2 →
    s.index.toNat + k = s.pc.toNat + 2 + j →
    (fetches s (.ldMemVx x) → ∀ i : RegIx, i < x → i.val = k → fetchedByte t j = (s.reg i).toNat) ∧
    (fetches s (.ldBVx x) → k < 3 →
      fetchedByte t j = if k = 0 then (s.reg x).toNat / 100 else
        if k = 1 then (s.reg x).toNat / 10 % 10 else (s.reg x).toNat % 10)

/-! ### Control flow, 41_control_flow.md -/

/-- Jump and jump-with-offset (R141, R147): `pc` is the 12-bit address, or its unreduced sum with register 0. -/
def Obligations.JumpsSetThePc : Prop :=
  ∀ (nnn : Addr) (s : State),
    (decodeWord (withAddr 0x1 nnn) = .jpNnn nnn ∧
      ∃ t, exec (.jpNnn nnn) s = .next t ∧ t.pc.toNat = nnn.toNat ∧ t = { s with pc := t.pc }) ∧
    (decodeWord (withAddr 0xB nnn) = .jpV0Nnn nnn ∧
      ∃ t, exec (.jpV0Nnn nnn) s = .next t ∧ t.pc.toNat = nnn.toNat + (s.reg 0).toNat ∧ t = { s with pc := t.pc })

/-- The four skips (R143 to R146): `pc` moves 2 further, mod 65536, exactly when the comparison holds; nothing else
changes. The low nibble `g` of the register forms is ignored. -/
def Obligations.SkipsAdvanceTwoMoreOnTheirCondition : Prop :=
  ∀ (x y g : Fin 16) (kk : Byte) (s : State),
    (decodeWord (withByte 0x3 x kk) = .seVxKk x kk ∧ ∃ t, exec (.seVxKk x kk) s = .next t ∧
      t.pc.toNat = (if s.reg x = kk then (s.pc.toNat + 2) % 65536 else s.pc.toNat) ∧ t = { s with pc := t.pc }) ∧
    (decodeWord (withByte 0x4 x kk) = .sneVxKk x kk ∧ ∃ t, exec (.sneVxKk x kk) s = .next t ∧
      t.pc.toNat = (if s.reg x ≠ kk then (s.pc.toNat + 2) % 65536 else s.pc.toNat) ∧ t = { s with pc := t.pc }) ∧
    (decodeWord (nibbles 0x5 x y g) = .seVxVy x y ∧ ∃ t, exec (.seVxVy x y) s = .next t ∧
      t.pc.toNat = (if s.reg x = s.reg y then (s.pc.toNat + 2) % 65536 else s.pc.toNat) ∧ t = { s with pc := t.pc }) ∧
    (decodeWord (nibbles 0x9 x y g) = .sneVxVy x y ∧ ∃ t, exec (.sneVxVy x y) s = .next t ∧
      t.pc.toNat = (if s.reg x ≠ s.reg y then (s.pc.toNat + 2) % 65536 else s.pc.toNat) ∧ t = { s with pc := t.pc })

/-- Call with a free slot (R142): the advanced `pc` goes to slot `sp`, `sp` goes up by one, `pc` is the target; every
other slot and everything else is unchanged. A full stack faults, which FaultsAreRecordedAndTheCycleUndone says. -/
def Obligations.CallPushesTheReturnAddress : Prop :=
  ∀ (nnn : Addr) (s : State) (h : s.sp.val < 16), ∃ t, exec (.callNnn nnn) s = .next t ∧
    t.pc.toNat = nnn.toNat ∧ t.sp.val = s.sp.val + 1 ∧ t.stack[s.sp.val] = s.pc ∧
    (∀ k : Fin 16, k.val ≠ s.sp.val → t.stack[k.val] = s.stack[k.val]) ∧
    t = { s with pc := t.pc, sp := t.sp, stack := t.stack }

/-- Return with a slot in use (R140): `pc` is the top slot, `sp` goes down by one, and every slot keeps its value. -/
def Obligations.ReturnPopsTheReturnAddress : Prop :=
  ∀ s : State, 0 < s.sp.val → ∃ t, exec .ret s = .next t ∧ t.sp.val + 1 = s.sp.val ∧
    t.pc = s.stack[s.sp.val - 1] ∧ t = { s with pc := t.pc, sp := t.sp }

/-- The call/return property (R149): up to 16 nested calls to any targets followed by as many returns bring back `sp`
and leave `pc` at the address after the first call; nothing but stack slots differs. -/
def Obligations.NestedCallsAndReturnsRestore : Prop :=
  ∀ (targets : List Addr) (s : State), targets ≠ [] → s.sp.val + targets.length ≤ 16 →
    ∃ t, handlers (targets.map .callNnn ++ List.replicate targets.length .ret) s = some t ∧
      t.sp = s.sp ∧ t.pc = s.pc + 2 ∧ t = { s with pc := t.pc, stack := t.stack }

/-! ### Registers and ALU, 42_alu.md -/

/-- Load-immediate, add-immediate, move, OR and AND (R160 to R164): the value of register X, and no flag: register 0xF
changes only if it is register X. -/
def Obligations.LoadsMoveAndBitwiseWriteRegisterX : Prop :=
  ∀ (x y : RegIx) (kk : Byte) (s : State),
    (decodeWord (withByte 0x6 x kk) = .ldVxKk x kk ∧
      ∃ t, exec (.ldVxKk x kk) s = .next t ∧ writesReg s t x kk) ∧
    (decodeWord (withByte 0x7 x kk) = .addVxKk x kk ∧
      ∃ t v, exec (.addVxKk x kk) s = .next t ∧ writesReg s t x v ∧ v.toNat = ((s.reg x).toNat + kk.toNat) % 256) ∧
    (decodeWord (nibbles 0x8 x y 0x0) = .ldVxVy x y ∧
      ∃ t, exec (.ldVxVy x y) s = .next t ∧ writesReg s t x (s.reg y)) ∧
    (decodeWord (nibbles 0x8 x y 0x1) = .orVxVy x y ∧
      ∃ t v, exec (.orVxVy x y) s = .next t ∧ writesReg s t x v ∧
        ∀ k, v.getLsbD k = ((s.reg x).getLsbD k || (s.reg y).getLsbD k)) ∧
    (decodeWord (nibbles 0x8 x y 0x2) = .andVxVy x y ∧
      ∃ t v, exec (.andVxVy x y) s = .next t ∧ writesReg s t x v ∧
        ∀ k, v.getLsbD k = ((s.reg x).getLsbD k && (s.reg y).getLsbD k))

/-- XOR (R165) is exclusive or, the spec's decision D4 (90_conflicts.md C3): a result bit is set exactly when the operand
bits differ; X = Y gives 0; no flag. -/
def Obligations.XorIsExclusiveOr : Prop :=
  ∀ (x y : RegIx) (s : State), ∃ t v, exec (.xorVxVy x y) s = .next t ∧ writesReg s t x v ∧
    (∀ k, v.getLsbD k = ((s.reg x).getLsbD k != (s.reg y).getLsbD k)) ∧ (x = y → v = 0)

/-- Add-with-carry, sub-with-borrow and sub-reverse (R166, R167, R169), in integers: the flag, the result mod 256.
Subtraction's flag is strict. That the operands are read first and that with X = 0xF the result stays is the spec's
decision D9 (log 14). -/
def Obligations.AddAndSubtractSetFlagAndResult : Prop :=
  ∀ (x y : RegIx) (s : State) (a b : Nat), a = (s.reg x).toNat → b = (s.reg y).toNat →
    (decodeWord (nibbles 0x8 x y 0x4) = .addVxVy x y ∧ ∃ t, exec (.addVxVy x y) s = .next t ∧
      writesFlagAndReg s t (if 255 < a + b then 1 else 0) x ((a + b) % 256)) ∧
    (decodeWord (nibbles 0x8 x y 0x5) = .subVxVy x y ∧ ∃ t, exec (.subVxVy x y) s = .next t ∧
      writesFlagAndReg s t (if a > b then 1 else 0) x ((256 + a - b) % 256)) ∧
    (decodeWord (nibbles 0x8 x y 0x7) = .subnVxVy x y ∧ ∃ t, exec (.subnVxVy x y) s = .next t ∧
      writesFlagAndReg s t (if b > a then 1 else 0) x ((256 + b - a) % 256))

/-- The two shifts (R168, R170), in integers: the flag is the bit shifted out; register Y (nibble `g`) takes no part. That
with X = 0xF the result stays is the spec's decision D9 (log 14). -/
def Obligations.ShiftsSetFlagAndResult : Prop :=
  ∀ (x g : Fin 16) (s : State) (a : Nat), a = (s.reg x).toNat →
    (decodeWord (nibbles 0x8 x g 0x6) = .shrVx x ∧ ∃ t, exec (.shrVx x) s = .next t ∧
      writesFlagAndReg s t (a % 2) x (a / 2)) ∧
    (decodeWord (nibbles 0x8 x g 0xE) = .shlVx x ∧ ∃ t, exec (.shlVx x) s = .next t ∧
      writesFlagAndReg s t (a / 128) x (2 * a % 256))

/-- Random-and (R171), for every draw: register X gets the draw ANDed with KK. That the draw is the free value
`Config.draw` at the count `draws`, and that the count goes up, is the model's choice (log 3). -/
def Obligations.RandomAndMasksTheDraw : Prop :=
  ∀ (x : RegIx) (kk : Byte) (s : State), ∃ t v, exec (.rndVxKk x kk) s = .next t ∧
    (∀ z : RegIx, t.reg z = if z = x then v else s.reg z) ∧
    (∀ k, v.getLsbD k = ((Config.draw s.draws).getLsbD k && kk.getLsbD k)) ∧
    t = { s with regs := t.regs, draws := s.draws + 1 }

/-! ### Index register and memory, 43_index_memory.md -/

/-- Set-index and font-address (R190, R192): the value of `I`, the whole register value counted by font-address, and
nothing else changed: memory is not accessed and no flag is written. -/
def Obligations.SetIndexAndFontAddressWriteIndex : Prop :=
  ∀ (x : RegIx) (nnn : Addr) (s : State),
    (decodeWord (withAddr 0xA nnn) = .ldINnn nnn ∧
      ∃ t, exec (.ldINnn nnn) s = .next t ∧ t.index.toNat = nnn.toNat ∧ t = { s with index := t.index }) ∧
    (decodeWord (withByte 0xF x 0x29) = .ldFVx x ∧
      ∃ t, exec (.ldFVx x) s = .next t ∧ t.index.toNat = 0x50 + 5 * (s.reg x).toNat ∧ t = { s with index := t.index })

/-- Add-to-index (R191) wraps mod 65536 (the spec's decision D22) and writes no flag. -/
def Obligations.AddToIndexWraps : Prop :=
  ∀ (x : RegIx) (s : State), ∃ t, exec (.addIVx x) s = .next t ∧
    t.index.toNat = (s.index.toNat + (s.reg x).toNat) % 65536 ∧ t = { s with index := t.index }

/-- BCD-store in range (R193): the three digits at `I`, `I + 1`, `I + 2`, every other byte and everything else, `I` too,
as before. -/
def Obligations.BcdStoreWritesThreeDigits : Prop :=
  ∀ (x : RegIx) (s : State), s.effAddr 2 ≤ 0xFFF → ∃ t, exec (.ldBVx x) s = .next t ∧
    (t.mem.read (s.effAddr 0)).toNat = (s.reg x).toNat / 100 ∧
    (t.mem.read (s.effAddr 1)).toNat = (s.reg x).toNat / 10 % 10 ∧
    (t.mem.read (s.effAddr 2)).toNat = (s.reg x).toNat % 10 ∧
    (∀ a, a < s.effAddr 0 ∨ s.effAddr 2 < a → t.mem.read a = s.mem.read a) ∧ t = { s with mem := t.mem }

/-- Block-store in range (R194): registers 0 to X - 1 at `I` and following, every other byte and everything else as
before; with X = 0 nothing is stored whatever `I` is. -/
def Obligations.BlockStoreWritesTheFirstRegisters : Prop :=
  ∀ (x : Fin 16) (s : State), bytesInMemory s x.val → ∃ t, exec (.ldMemVx x) s = .next t ∧
    (∀ i : RegIx, i < x → t.mem.read (s.effAddr i.val) = s.reg i) ∧
    (∀ a, a < s.effAddr 0 ∨ s.effAddr x.val ≤ a → t.mem.read a = s.mem.read a) ∧ t = { s with mem := t.mem }

/-- Block-load in range (R195): registers 0 to X - 1 from `I` and following, every other register and everything else as
before. -/
def Obligations.BlockLoadReadsTheFirstRegisters : Prop :=
  ∀ (x : Fin 16) (s : State), bytesInMemory s x.val → ∃ t, exec (.ldVxMem x) s = .next t ∧
    (∀ i : RegIx, t.reg i = if i < x then s.mem.read (s.effAddr i.val) else s.reg i) ∧ t = { s with regs := t.regs }

/-! ### Display, 44_display.md -/

/-- Clear-display (R210): every cell is unlit, and nothing but the framebuffer changes; memory is untouched (the spec's
decision D5). -/
def Obligations.ClearDisplayUnlightsEveryCell : Prop :=
  ∀ s : State, ∃ t, exec .cls s = .next t ∧ (∀ c, c < 2048 → t.fb.lit c = false) ∧ t = { s with fb := t.fb }

/-- A draw inside memory and inside the framebuffer (R211 to R214; where bits past column 63 go is the spec's decision
D6): exactly the cells of the set bits are toggled, register 0xF tells whether one of them was lit before, every other
register and everything else is as before. -/
def Obligations.DrawTogglesTheCellsOfSetBits : Prop :=
  ∀ (x y : RegIx) (n : Fin 16) (s : State), bytesInMemory s n.val →
    (∀ k, spriteCell s x y n.val k → k ≤ 2047) →
    ∃ t, exec (.drwVxVyN x y n) s = .next t ∧
      (∀ k, k < 2048 → spriteCell s x y n.val k → t.fb.lit k = !s.fb.lit k) ∧
      (∀ k, k < 2048 → ¬spriteCell s x y n.val k → t.fb.lit k = s.fb.lit k) ∧
      ((∃ k, spriteCell s x y n.val k ∧ s.fb.lit k = true) → t.reg 0xF = 1) ∧
      ((∀ k, spriteCell s x y n.val k → s.fb.lit k = false) → t.reg 0xF = 0) ∧
      (∀ z : RegIx, z ≠ 0xF → t.reg z = s.reg z) ∧ t = { s with fb := t.fb, regs := t.regs }

/-- A draw with a set bit past the last cell (R212, the spec's decisions D1, D6): the cycle faults with the first such
cell in scan order and is undone. -/
def Obligations.DrawPastTheLastCellFaults : Prop :=
  ∀ (x y : RegIx) (n : Fin 16) (s : State) (r c : Nat), fetches s (.drwVxVyN x y n) → bytesInMemory s n.val →
    r < n.val → c < 8 → spriteBit s r c → 2047 < cellOf s x y r c →
    (∀ p q, p < r ∧ q < 8 ∨ p = r ∧ q < c → spriteBit s p q → cellOf s x y p q ≤ 2047) →
    ∃ info : Word, info.toNat = cellOf s x y r c ∧ step s = .next (recorded s .framebufferOutOfRange info)

/-- Two draws of the same sprite at the same place (R215): the second, in any state with the same registers X and Y,
`I` and memory and the framebuffer the first left, restores the framebuffer, and its flag is 1 exactly when some set bit
fell on an unlit cell the first time. Which cell a bit falls on is the spec's decisions D6 and D8. -/
def Obligations.DrawingTwiceRestoresTheFramebuffer : Prop :=
  ∀ (x y : RegIx) (n : Fin 16) (s t u : State), s.fault.valid = false → exec (.drwVxVyN x y n) s = .next t →
    t.fault.valid = false → u.fb = t.fb → u.mem = s.mem → u.index = s.index → u.reg x = s.reg x → u.reg y = s.reg y →
    ∃ v, exec (.drwVxVyN x y n) u = .next v ∧ v.fb = s.fb ∧ v.fault = u.fault ∧
      (v.reg 0xF = 1 ↔ ∃ k, spriteCell s x y n.val k ∧ s.fb.lit k = false)

/-- The presentation port shows a lit cell as `LIT` = 2^W - 1 and an unlit one as 0, whatever W is (10_state.md R32,
R33; one bit per cell in the model is log 6, W is log 7). -/
def Obligations.ReadPortShowsLitOrZero : Prop :=
  ∀ (s : State) (c : BitVec 11),
    (s.readCell c).toNat = if s.fb.getLsbD c.toNat then 2 ^ (Config.fbCellWidth : Nat) - 1 else 0

/-- The fault port shows the fault register, and a cause as its code (60_exceptions.md R251, the spec's decision D17). -/
def Obligations.FaultPortShowsTheFaultRegister : Prop :=
  (∀ s : State, s.faultPort = (BitVec.ofBool s.fault.valid, s.fault.cause.code, s.fault.pc, s.fault.info)) ∧
  FaultCause.none.code = 0 ∧ FaultCause.fetchOutOfRange.code = 1 ∧ FaultCause.stackOverflow.code = 2 ∧
  FaultCause.stackUnderflow.code = 3 ∧ FaultCause.memReadOutOfRange.code = 4 ∧
  FaultCause.memWriteOutOfRange.code = 5 ∧ FaultCause.keyIndexOutOfRange.code = 6 ∧
  FaultCause.framebufferOutOfRange.code = 7

/-! ### Keypad and timers, 45_keypad_timers.md -/

/-- The key skips with an index that names a key (R230, R231): `pc` moves 2 further exactly when the key is pressed, or
not pressed; nothing else changes. -/
def Obligations.KeySkipsTestTheirKey : Prop :=
  ∀ (x : RegIx) (s : State), (s.reg x).toNat ≤ 15 →
    (∃ t, exec (.skpVx x) s = .next t ∧ t = { s with pc := t.pc } ∧
      t.pc.toNat = if s.keys.getLsbD (s.reg x).toNat then (s.pc.toNat + 2) % 65536 else s.pc.toNat) ∧
    (∃ t, exec (.sknpVx x) s = .next t ∧ t = { s with pc := t.pc } ∧
      t.pc.toNat = if s.keys.getLsbD (s.reg x).toNat then s.pc.toNat else (s.pc.toNat + 2) % 65536)

/-- Wait-for-key (R232): the least pressed key goes to register X; with no key pressed only `pc` goes back by 2, so that
after the cycle it is what it was before, and the timers tick. -/
def Obligations.WaitForKeyTakesTheLeastKeyOrWaits : Prop :=
  ∀ (x : RegIx) (s : State), decodeWord (withByte 0xF x 0x0A) = .ldVxK x ∧
    (∀ k : Fin 16, s.keys.getLsbD k.val = true → (∀ j, j < k.val → s.keys.getLsbD j = false) →
      ∃ t v, exec (.ldVxK x) s = .next t ∧ writesReg s t x v ∧ v.toNat = k.val) ∧
    ((∀ k : Fin 16, s.keys.getLsbD k.val = false) →
      (∃ t, exec (.ldVxK x) s = .next t ∧ t = { s with pc := t.pc } ∧ t.pc.toNat = (s.pc.toNat + 65534) % 65536) ∧
      (fetches s (.ldVxK x) → ∃ t, step s = .next t ∧ t = { s with dt := t.dt, st := t.st } ∧
        t.dt.toNat = s.dt.toNat - 1 ∧ t.st.toNat = s.st.toNat - 1))

/-- The timer moves (R233 to R235): read-delay-timer reads the value before the tick; a timer written in a cycle is
ticked in the same cycle. -/
def Obligations.TimerMovesCopyAndTheTickFollows : Prop :=
  ∀ (x : RegIx) (s : State),
    (decodeWord (withByte 0xF x 0x07) = .ldVxDt x ∧ (∃ t, exec (.ldVxDt x) s = .next t ∧ writesReg s t x s.dt) ∧
      (fetches s (.ldVxDt x) → ∃ t, step s = .next t ∧ t.reg x = s.dt ∧ t.dt.toNat = s.dt.toNat - 1)) ∧
    (decodeWord (withByte 0xF x 0x15) = .ldDtVx x ∧
      (∃ t, exec (.ldDtVx x) s = .next t ∧ t = { s with dt := s.reg x }) ∧
      (fetches s (.ldDtVx x) → ∃ t, step s = .next t ∧ t.dt.toNat = (s.reg x).toNat - 1)) ∧
    (decodeWord (withByte 0xF x 0x18) = .ldStVx x ∧
      (∃ t, exec (.ldStVx x) s = .next t ∧ t = { s with st := s.reg x }) ∧
      (fetches s (.ldStVx x) → ∃ t, step s = .next t ∧ t.st.toNat = (s.reg x).toNat - 1))

/-- Timers count cycles (R236), here with no host move in between (log 16): over `k` cycles none of which faults or is set-delay-timer, the delay timer goes down by
`k`, to 0 at the least, whatever the instructions are. -/
def Obligations.DelayTimerCountsCycles : Prop :=
  ∀ (k : Nat) (s t : State), core.run k s = .next t → t.fault.valid = false →
    (∀ j u, j < k → core.run j s = .next u → ∀ x, decodeWord u.fetchWord ≠ .ldDtVx x) →
    t.dt.toNat = s.dt.toNat - k

/-! ### Faults, 60_exceptions.md -/

/-- Every faulting condition but the framebuffer's (R251, R253 to R258, the spec's decisions D1, D17): the fault register
records cause, address and info, and nothing else of the state changes, timers and `pc` included. -/
def Obligations.FaultsAreRecordedAndTheCycleUndone : Prop :=
  ∀ s : State,
    (s.fault.valid = false → 0x0FFE < s.pc.toNat → step s = .next (recorded s .fetchOutOfRange s.pc)) ∧
    (∀ nnn, fetches s (.callNnn nnn) → s.sp = 16 → step s = .next (recorded s .stackOverflow 16)) ∧
    (fetches s .ret → s.sp = 0 → step s = .next (recorded s .stackUnderflow 0)) ∧
    (∀ x y n, fetches s (.drwVxVyN x y n) → ¬bytesInMemory s n.val →
      ∃ info : Word, info.toNat = max s.index.toNat 0x1000 ∧ step s = .next (recorded s .memReadOutOfRange info)) ∧
    (∀ x, fetches s (.ldVxMem x) → ¬bytesInMemory s x.val →
      ∃ info : Word, info.toNat = max s.index.toNat 0x1000 ∧ step s = .next (recorded s .memReadOutOfRange info)) ∧
    (∀ x, fetches s (.ldBVx x) → ¬bytesInMemory s 3 →
      ∃ info : Word, info.toNat = max s.index.toNat 0x1000 ∧ step s = .next (recorded s .memWriteOutOfRange info)) ∧
    (∀ x, fetches s (.ldMemVx x) → ¬bytesInMemory s x.val →
      ∃ info : Word, info.toNat = max s.index.toNat 0x1000 ∧ step s = .next (recorded s .memWriteOutOfRange info)) ∧
    (∀ x, fetches s (.skpVx x) ∨ fetches s (.sknpVx x) → 15 < (s.reg x).toNat →
      ∃ info : Word, info.toNat = (s.reg x).toNat ∧ step s = .next (recorded s .keyIndexOutOfRange info))

/-- No other condition faults (R251), and a fault is precise (R252): a cycle that records a fault changes nothing else,
and its cause comes from the instruction and the condition R251 gives for it. -/
def Obligations.NoOtherConditionFaults : Prop :=
  ∀ s t : State, s.fault.valid = false → step s = .next t → t.fault.valid = true →
    t = recorded s t.fault.cause t.fault.info ∧
    (t.fault.cause = .fetchOutOfRange ∧ 0x0FFE < s.pc.toNat ∨
     t.fault.cause = .stackOverflow ∧ s.sp = 16 ∧ (∃ nnn, fetches s (.callNnn nnn)) ∨
     t.fault.cause = .stackUnderflow ∧ s.sp = 0 ∧ fetches s .ret ∨
     t.fault.cause = .memReadOutOfRange ∧ (∃ x, fetches s (.ldVxMem x) ∧ ¬bytesInMemory s x.val) ∨
     t.fault.cause = .memReadOutOfRange ∧ (∃ x y n, fetches s (.drwVxVyN x y n) ∧ ¬bytesInMemory s n.val) ∨
     t.fault.cause = .memWriteOutOfRange ∧ (∃ x, fetches s (.ldBVx x) ∧ ¬bytesInMemory s 3) ∨
     t.fault.cause = .memWriteOutOfRange ∧ (∃ x, fetches s (.ldMemVx x) ∧ ¬bytesInMemory s x.val) ∨
     t.fault.cause = .keyIndexOutOfRange ∧ (∃ x, (fetches s (.skpVx x) ∨ fetches s (.sknpVx x)) ∧ 15 < (s.reg x).toNat) ∨
     t.fault.cause = .framebufferOutOfRange ∧ (∃ x y n, fetches s (.drwVxVyN x y n) ∧ bytesInMemory s n.val ∧
       ∃ k, spriteCell s x y n.val k ∧ 2047 < k))

/-- A halted core stays as it is for any number of cycles with no host move in between (40_cycle_driver.md R121, R263, the
spec's decision D27, log 16). FaultedCoreUnderHostMoves says it of runs with host moves. -/
def Obligations.HaltedCoreStaysHalted : Prop :=
  ∀ (n : Nat) (s : State), s.fault.valid = true → core.run n s = .next s

/-! ### State as a whole, 10_state.md and 70_reset_and_hazards.md -/

/-- The state after reset (R41, R290; the zeros are the spec's decision D10; the key flags and the draw count are the
model's choice, logs 2 and 3). -/
def Obligations.ResetStateIsAsTheTableSays : Prop :=
  State.reset.pc.toNat = 0x200 ∧ (∀ x : RegIx, State.reset.reg x = 0) ∧ State.reset.index = 0 ∧ State.reset.sp = 0 ∧
  (∀ k : Fin 16, State.reset.stack[k.val] = 0) ∧ State.reset.dt = 0 ∧ State.reset.st = 0 ∧ State.reset.keys = 0 ∧
  (∀ c, State.reset.fb.lit c = false) ∧ (∀ a, a < 0x50 ∨ 0xA0 ≤ a → State.reset.mem.read a = 0) ∧
  State.reset.fault = { valid := false, cause := .none, pc := 0, info := 0 } ∧ State.reset.draws = 0

/-- The 80 font bytes after reset (20_memory.md R62; all glyphs but 3 are the spec's decision D3). -/
def Obligations.FontBytesAfterReset : Prop :=
  State.reset.mem.readBytes 0x050 80 =
    [0xF0, 0x90, 0x90, 0x90, 0xF0, 0x20, 0x60, 0x20, 0x20, 0x70, 0xF0, 0x10, 0xF0, 0x80, 0xF0, 0xF0, 0x10, 0xF0, 0x10,
     0xF0] ++
    [0x90, 0x90, 0xF0, 0x10, 0x10, 0xF0, 0x80, 0xF0, 0x10, 0xF0, 0xF0, 0x80, 0xF0, 0x90, 0xF0, 0xF0, 0x10, 0x20, 0x40,
     0x40] ++
    [0xF0, 0x90, 0xF0, 0x90, 0xF0, 0xF0, 0x90, 0xF0, 0x10, 0xF0, 0xF0, 0x90, 0xF0, 0x90, 0x90, 0xE0, 0x90, 0xE0, 0x90,
     0xE0] ++
    [0xF0, 0x80, 0x80, 0x80, 0xF0, 0xE0, 0x90, 0x90, 0x90, 0xE0, 0xF0, 0x80, 0xF0, 0x80, 0xF0, 0xF0, 0x80, 0xF0, 0x80,
     0x80]

/-- The reset state meets the invariant. -/
def Obligations.ResetMeetsTheInvariant : Prop := State.reset.Inv

/-- The invariant is kept by every cycle, from every state that meets it (10_state.md R26, R44, 60_exceptions.md R251):
memory stays in canonical form, `pc` stays at most 0x10FE and return addresses at most 0x1000, and the fault register
says truly which condition halted the core. -/
def Obligations.EveryStepKeepsTheInvariant : Prop :=
  ∀ s t : State, s.Inv → step s = .next t → t.Inv

/-- Every host move keeps the invariant (10_state.md R40). -/
def Obligations.EveryHostMoveKeepsTheInvariant : Prop :=
  ∀ (s t : State) (m : HostMove), s.Inv → s.apply m = .next t → t.Inv

/-- What each host move touches (R40, the spec's decision D20): the loader one byte, the keypad only the flags, the read
ports nothing; reset puts everything at its reset value but the key flags (R290) and the draw count (log 18). -/
def Obligations.HostMovesTouchOnlyTheirPart : Prop :=
  ∀ s : State,
    (∀ a v, ∃ t, s.apply (.load a v) = .next t ∧ t = { s with mem := t.mem } ∧
      ∀ b, t.mem.read b = if b = a.toNat then v else s.mem.read b) ∧
    (∀ k, s.apply (.keys k) = .next { s with keys := k }) ∧
    (∀ c, s.apply (.readCell c) = .next s) ∧ s.apply .readFault = .next s ∧
    s.apply .reset = .next { State.reset with keys := s.keys, draws := s.draws }

/-- The loader's image (20_memory.md R76, R79, the spec's decision D20): the `k`-th byte goes to 0x200 + `k`, and every
other byte and everything else is as before. -/
def Obligations.LoaderPlacesTheImage : Prop :=
  ∀ (s : State) (image : List Byte), image.length ≤ 3584 →
    (∀ k (h : k < image.length), (s.loadImage image).mem.read (0x200 + k) = image[k]) ∧
    (∀ a, a < 0x200 ∨ 0x200 + image.length ≤ a → (s.loadImage image).mem.read a = s.mem.read a) ∧
    s.loadImage image = { s with mem := (s.loadImage image).mem }

/-- The core run from reset with no image and no host move (log 16; 70_reset_and_hazards.md R293): 1792 cycles of clear-display,
each changing only `pc`, then a fetch fault at 0x1000. That fresh memory is zero is the spec's decision D10, that 0x0000
is clear-display its decision D2. -/
def Obligations.EmptyMemoryClearsThenFaults : Prop :=
  (∀ n, n ≤ 1792 → core.run n State.reset = .next { State.reset with pc := BitVec.ofNat 16 (0x200 + 2 * n) }) ∧
  ∀ n, 1792 < n → core.run n State.reset =
    .next { State.reset with pc := 0x1000, fault := { valid := true, cause := .fetchOutOfRange, pc := 0x1000,
                                                      info := 0x1000 } }

/-- The writers of every piece of state among the handlers (R22, R23, R25, R43): an instruction writes nothing that its
rule does not list, and only a raise writes the fault register (R35). -/
def Obligations.HandlersWriteOnlyWhatTheirRuleLists : Prop :=
  ∀ (i : Instr) (s t : State), s.fault.valid = false → exec i s = .next t →
    (∀ z : RegIx, t.reg z ≠ s.reg z → mayWrite z i) ∧
    (t.index ≠ s.index → (∃ nnn, i = .ldINnn nnn) ∨ (∃ x, i = .addIVx x) ∨ ∃ x, i = .ldFVx x) ∧
    (t.stack ≠ s.stack → ∃ nnn, i = .callNnn nnn) ∧
    (t.sp ≠ s.sp → i = .ret ∨ ∃ nnn, i = .callNnn nnn) ∧
    (t.dt ≠ s.dt → ∃ x, i = .ldDtVx x) ∧ (t.st ≠ s.st → ∃ x, i = .ldStVx x) ∧
    (t.fb ≠ s.fb → i = .cls ∨ ∃ x y n, i = .drwVxVyN x y n) ∧
    ((∃ a, t.mem.read a ≠ s.mem.read a) → (∃ x, i = .ldBVx x) ∨ ∃ x, i = .ldMemVx x) ∧
    t.keys = s.keys ∧ (t.draws ≠ s.draws → ∃ x kk, i = .rndVxKk x kk) ∧
    (t.fault.valid = false → t.fault = s.fault) ∧
    (t.fault.valid = false → t.pc ≠ s.pc → mayWritePc i) ∧
    (t.fault.valid = true → t = { s with pc := s.pc - 2, fault := t.fault })

/-- No instruction reads the sound timer (R30): two states that differ only in it step to states that differ at most in
it. -/
def Obligations.SoundTimerIsNeverRead : Prop :=
  ∀ (s t : State) (v : Byte), step s = .next t → ∃ w, step { s with st := v } = .next { t with st := w }

/-- Popped and unused stack slots are never read (R28, the spec's decision D28): two states whose slots below `sp` agree
step to states that differ at most in slots at or above the new `sp`. -/
def Obligations.UnusedStackSlotsAreNeverRead : Prop :=
  ∀ (s t : State) (other : Vector Word 16), (∀ k : Fin 16, k.val < s.sp.val → other[k.val] = s.stack[k.val]) →
    step s = .next t →
    ∃ after : Vector Word 16, step { s with stack := other } = .next { t with stack := after } ∧
      ∀ k : Fin 16, k.val < t.sp.val → after[k.val] = t.stack[k.val]

/-- The key flags are read by the two key skips and wait-for-key only (R31): under any other instruction a cycle does
the same whatever the flags are. No cycle writes them, under these three or any other. -/
def Obligations.KeysAreReadByThreeInstructionsOnly : Prop :=
  (∀ (s t : State) (k : BitVec 16),
    (∀ x, decodeWord s.fetchWord ≠ .skpVx x ∧ decodeWord s.fetchWord ≠ .sknpVx x ∧ decodeWord s.fetchWord ≠ .ldVxK x) →
    step s = .next t → step { s with keys := k } = .next { t with keys := k }) ∧
  ∀ s t : State, step s = .next t → t.keys = s.keys

/-- A parked core (R302 (b), the spec's decision D23), provided the host writes no memory: over any number of cycles with
no host move in between (log 16) only the timers change, and they run down to 0. ParkedCoreUnderHostMoves says it of
runs with host moves. -/
def Obligations.ParkedCoreOnlyCountsDown : Prop :=
  ∀ (n : Nat) (s : State), s.fault.valid = false → s.parked →
    ∃ t, core.run n s = .next t ∧ t = { s with dt := t.dt, st := t.st } ∧
      t.dt.toNat = s.dt.toNat - n ∧ t.st.toNat = s.st.toNat - n

/-- A waiting core (R270, R302 (c), the spec's decision D23): over any number of cycles with no host move in between
(log 16), so that no key is set, only the timers change; all other state survives. WaitingCoreUnderHostMoves says it of
runs with host moves. -/
def Obligations.WaitingCoreOnlyCountsDown : Prop :=
  ∀ (n : Nat) (s : State), s.fault.valid = false → s.waiting →
    ∃ t, core.run n s = .next t ∧ t = { s with dt := t.dt, st := t.st } ∧
      t.dt.toNat = s.dt.toNat - n ∧ t.st.toNat = s.st.toNat - n

/-! ### Runs with host moves in between, 70_reset_and_hazards.md R302 -/

/-- A run of `n` `step` requests and no other move is the run of `n` cycles of the core, and a run is its first part
followed by the rest (40_cycle_driver.md R129, R302, the spec's decision D23). -/
def Obligations.StepRequestsAloneRunTheCore : Prop :=
  (∀ (n : Nat) (s : State), s.drive (List.replicate n .step) = core.run n s ∧
    stepRequests (List.replicate n .step) = n) ∧
  ∀ (ms ns : List HostMove) (s t : State), s.drive ms = .next t →
    s.drive (ms ++ ns) = t.drive ns ∧ stepRequests (ms ++ ns) = stepRequests ms + stepRequests ns

/-- A run never stops, whatever the host moves in between, and every state it reaches meets the invariant (R302, R44). -/
def Obligations.RunsGoThroughAndKeepTheInvariant : Prop :=
  ∀ (ms : List HostMove) (s : State), s.Inv → ∃ t, s.drive ms = .next t ∧ t.Inv

/-- A faulted run (R302 (a), R263, the spec's decisions D23 and D27): until the host resets the core, only the host's own
writes of keys and memory change anything; a reset clears the fault. -/
def Obligations.FaultedCoreUnderHostMoves : Prop :=
  ∀ (ms : List HostMove) (s : State), s.fault.valid = true → .reset ∉ ms →
    (∃ t, s.drive ms = .next t ∧ t = { s with keys := t.keys, mem := t.mem }) ∧
    ∃ t, s.drive (ms ++ [.reset]) = .next t ∧ t.fault = { valid := false, cause := .none, pc := 0, info := 0 } ∧
      t.pc.toNat = 0x200

/-- A parked run (R302 (b), the spec's decision D23): provided the host writes no memory (and does not reset the core), from
here only `dt` and `st` change, by one per cycle down to 0, and the key flags as the host drives them. -/
def Obligations.ParkedCoreUnderHostMoves : Prop :=
  ∀ (ms : List HostMove) (s : State), s.fault.valid = false → s.parked → noResetNoLoad ms →
    ∃ t, s.drive ms = .next t ∧ t = { s with dt := t.dt, st := t.st, keys := t.keys } ∧
      t.dt.toNat = s.dt.toNat - stepRequests ms ∧ t.st.toNat = s.st.toNat - stepRequests ms

/-- A waiting run (R302 (c), R270, the spec's decision D23): while the host sets no key, and neither writes memory nor
resets the core, only the timers change; and the run continues when the host sets a key: the next cycle stores the least
pressed key and goes on to the next instruction. -/
def Obligations.WaitingCoreUnderHostMoves : Prop :=
  ∀ (ms : List HostMove) (s : State) (x : RegIx), s.fault.valid = false → s.waiting →
    decodeWord s.fetchWord = .ldVxK x → noResetNoLoad ms → (∀ k, .keys k ∈ ms → k = 0) →
    (∃ t, s.drive ms = .next t ∧ t = { s with dt := t.dt, st := t.st } ∧ t.waiting ∧
      t.dt.toNat = s.dt.toNat - stepRequests ms ∧ t.st.toNat = s.st.toNat - stepRequests ms) ∧
    ∀ (k : BitVec 16) (j : Fin 16), k.getLsbD j.val = true → (∀ i, i < j.val → k.getLsbD i = false) →
      ∃ u, s.drive (ms ++ [.keys k, .step]) = .next u ∧ u.pc.toNat = s.pc.toNat + 2 ∧
        (∀ z : RegIx, (u.reg z).toNat = if z = x then j.val else (s.reg z).toNat) ∧
        u = { s with regs := u.regs, pc := u.pc, keys := k, dt := u.dt, st := u.st }

end
end

