-- ==== Sys2Proof/Laws/Decode.lean ====
section
/-! SUPPORT. The fields of a word as integers (30_encoding.md R92), the fields of the encoder's words, and a word from
its two bytes. -/

namespace Sys2Proof

theorem fieldF_eq (op : Word) : fieldF op = op.toNat / 4096 := by
  have := op.isLt
  simp only [fieldF, BitVec.extractLsb_toNat, Nat.shiftRight_eq_div_pow]
  omega

theorem fieldX_val (op : Word) : (fieldX op).val = op.toNat / 256 % 16 := by
  simp [fieldX, Nat.shiftRight_eq_div_pow]

theorem fieldY_val (op : Word) : (fieldY op).val = op.toNat / 16 % 16 := by
  simp [fieldY, Nat.shiftRight_eq_div_pow]

theorem fieldN_val (op : Word) : (fieldN op).val = op.toNat % 16 := by
  simp [fieldN]

theorem key4_eq (op : Word) : key4 op = op.toNat % 16 := by
  simp [key4]

theorem key8_eq (op : Word) : key8 op = op.toNat % 256 := by
  simp [key8]

theorem fieldKK_toNat (op : Word) : (fieldKK op).toNat = op.toNat % 256 := by
  simp [fieldKK]

theorem fieldNNN_toNat (op : Word) : (fieldNNN op).toNat = op.toNat % 4096 := by
  simp [fieldNNN]

/-! ### Words of four nibbles -/

section Nibbles

variable {f x y n : Nat} (hf : f < 16) (hx : x < 16) (hy : y < 16) (hn : n < 16)

include hf hx hy hn

theorem wordOfNibbles_toNat : (wordOfNibbles f x y n).toNat = 4096 * f + 256 * x + 16 * y + n := by
  simp only [wordOfNibbles, BitVec.toNat_ofNat]
  omega

theorem fieldF_wordOfNibbles : fieldF (wordOfNibbles f x y n) = f := by
  rw [fieldF_eq, wordOfNibbles_toNat hf hx hy hn]; omega

theorem fieldX_wordOfNibbles : fieldX (wordOfNibbles f x y n) = ⟨x, hx⟩ := by
  apply Fin.ext; rw [fieldX_val, wordOfNibbles_toNat hf hx hy hn]; show _ = x; omega

theorem fieldY_wordOfNibbles : fieldY (wordOfNibbles f x y n) = ⟨y, hy⟩ := by
  apply Fin.ext; rw [fieldY_val, wordOfNibbles_toNat hf hx hy hn]; show _ = y; omega

theorem fieldN_wordOfNibbles : fieldN (wordOfNibbles f x y n) = ⟨n, hn⟩ := by
  apply Fin.ext; rw [fieldN_val, wordOfNibbles_toNat hf hx hy hn]; show _ = n; omega

theorem key4_wordOfNibbles : key4 (wordOfNibbles f x y n) = n := by
  rw [key4_eq, wordOfNibbles_toNat hf hx hy hn]; omega

theorem key8_wordOfNibbles : key8 (wordOfNibbles f x y n) = 16 * y + n := by
  rw [key8_eq, wordOfNibbles_toNat hf hx hy hn]; omega

end Nibbles

/-! ### Words with a byte or an address -/

theorem wordXKK_toNat {f : Nat} (hf : f < 16) (x : RegIx) (kk : Byte) :
    (wordXKK f x kk).toNat = 4096 * f + 256 * x.val + kk.toNat := by
  have := x.isLt
  have := kk.isLt
  simp only [wordXKK, BitVec.toNat_ofNat]
  omega

theorem fieldF_wordXKK {f : Nat} (hf : f < 16) (x : RegIx) (kk : Byte) : fieldF (wordXKK f x kk) = f := by
  have := x.isLt
  have := kk.isLt
  rw [fieldF_eq, wordXKK_toNat hf]; omega

theorem fieldX_wordXKK {f : Nat} (hf : f < 16) (x : RegIx) (kk : Byte) : fieldX (wordXKK f x kk) = x := by
  have := x.isLt
  have := kk.isLt
  apply Fin.ext; rw [fieldX_val, wordXKK_toNat hf]; omega

theorem fieldKK_wordXKK {f : Nat} (hf : f < 16) (x : RegIx) (kk : Byte) : fieldKK (wordXKK f x kk) = kk := by
  have := kk.isLt
  apply BitVec.eq_of_toNat_eq; rw [fieldKK_toNat, wordXKK_toNat hf]; omega

theorem key8_wordXKK {f : Nat} (hf : f < 16) (x : RegIx) (kk : Byte) : key8 (wordXKK f x kk) = kk.toNat := by
  have := kk.isLt
  rw [key8_eq, wordXKK_toNat hf]; omega

theorem key4_wordXKK {f : Nat} (hf : f < 16) (x : RegIx) (kk : Byte) : key4 (wordXKK f x kk) = kk.toNat % 16 := by
  rw [key4_eq, wordXKK_toNat hf]; omega

theorem wordNNN_toNat {f : Nat} (hf : f < 16) (nnn : Addr) : (wordNNN f nnn).toNat = 4096 * f + nnn.toNat := by
  have := nnn.isLt
  simp only [wordNNN, BitVec.toNat_ofNat]
  omega

theorem fieldF_wordNNN {f : Nat} (hf : f < 16) (nnn : Addr) : fieldF (wordNNN f nnn) = f := by
  have := nnn.isLt
  rw [fieldF_eq, wordNNN_toNat hf]; omega

theorem fieldNNN_wordNNN {f : Nat} (hf : f < 16) (nnn : Addr) : fieldNNN (wordNNN f nnn) = nnn := by
  have := nnn.isLt
  apply BitVec.eq_of_toNat_eq; rw [fieldNNN_toNat, wordNNN_toNat hf]; omega

/-! ### Bytes of a word -/

/-- Splitting a word into its bytes and joining them again, high byte first (20_memory.md R63). -/
@[simp] theorem wordOfBytes_bytesOfWord (op : Word) :
    wordOfBytes (bytesOfWord op).1 (bytesOfWord op).2 = op := by
  apply BitVec.eq_of_toNat_eq
  have := op.isLt
  simp only [wordOfBytes, bytesOfWord, BitVec.toNat_append, BitVec.extractLsb_toNat, Nat.shiftRight_eq_div_pow]
  rw [Nat.shiftLeft_eq, Nat.mul_comm, ← Nat.two_pow_add_eq_or_of_lt (by omega)]
  omega

theorem wordOfBytes_toNat (hi lo : Byte) : (wordOfBytes hi lo).toNat = 256 * hi.toNat + lo.toNat := by
  have := lo.isLt
  simp only [wordOfBytes, BitVec.toNat_append]
  rw [Nat.shiftLeft_eq, Nat.mul_comm, ← Nat.two_pow_add_eq_or_of_lt (by omega)]

@[simp] theorem decode_two (hi lo : Byte) (rest : List Byte) :
    decode (hi :: lo :: rest) = .ok (decodeWord (wordOfBytes hi lo), rest) := rfl

/-! ### Masks of the opcode table, R101 -/

theorem byte_and_F0 : ∀ v : Byte, (v &&& 0xF0).toNat = v.toNat / 16 * 16 := by decide

theorem byte_and_0F : ∀ v : Byte, (v &&& 0x0F).toNat = v.toNat % 16 := by decide

theorem byte_and_FF (v : Byte) : (v &&& 0xFF).toNat = v.toNat := by
  rw [show (0xFF : Byte) = BitVec.allOnes 8 from rfl, BitVec.and_allOnes]

/-- A mask works on the two bytes of a word separately. -/
theorem wordOfBytes_and (a b c d : Byte) : wordOfBytes a b &&& wordOfBytes c d = wordOfBytes (a &&& c) (b &&& d) := by
  simp only [wordOfBytes]
  exact BitVec.and_append

theorem and_mask_toNat (op : Word) (c d : Byte) : (op &&& wordOfBytes c d).toNat =
    256 * ((bytesOfWord op).1 &&& c).toNat + ((bytesOfWord op).2 &&& d).toNat := by
  conv_lhs => rw [← wordOfBytes_bytesOfWord op]
  rw [wordOfBytes_and, wordOfBytes_toNat]

theorem bytesOfWord_fst_toNat (op : Word) : (bytesOfWord op).1.toNat = op.toNat / 256 := by
  have := op.isLt
  simp only [bytesOfWord, BitVec.extractLsb_toNat, Nat.shiftRight_eq_div_pow]
  omega

theorem bytesOfWord_snd_toNat (op : Word) : (bytesOfWord op).2.toNat = op.toNat % 256 := by
  simp [bytesOfWord]

theorem and_F000_toNat (op : Word) : (op &&& 0xF000).toNat = 4096 * fieldF op := by
  rw [show (0xF000 : Word) = wordOfBytes 0xF0 0x00 from rfl, and_mask_toNat, byte_and_F0, bytesOfWord_fst_toNat,
    fieldF_eq]
  simp
  omega

theorem and_F00F_toNat (op : Word) : (op &&& 0xF00F).toNat = 4096 * fieldF op + key4 op := by
  rw [show (0xF00F : Word) = wordOfBytes 0xF0 0x0F from rfl, and_mask_toNat, byte_and_F0, byte_and_0F,
    bytesOfWord_fst_toNat, bytesOfWord_snd_toNat, fieldF_eq, key4_eq]
  omega

theorem and_F0FF_toNat (op : Word) : (op &&& 0xF0FF).toNat = 4096 * fieldF op + key8 op := by
  rw [show (0xF0FF : Word) = wordOfBytes 0xF0 0xFF from rfl, and_mask_toNat, byte_and_F0, byte_and_FF,
    bytesOfWord_fst_toNat, bytesOfWord_snd_toNat, fieldF_eq, key8_eq]
  omega

theorem fieldF_lt (op : Word) : fieldF op < 16 := (op.extractLsb 15 12).isLt

theorem key4_lt (op : Word) : key4 op < 16 := (op.extractLsb 3 0).isLt

theorem key8_lt (op : Word) : key8 op < 256 := (op.extractLsb 7 0).isLt

/-- A row with the family alone (mask 0xF000). -/
theorem and_F000_eq_iff (op v : Word) : op &&& 0xF000 = v ↔ 4096 * fieldF op = v.toNat := by
  rw [← and_F000_toNat, BitVec.toNat_inj]

/-- A row with a 4-bit key (mask 0xF00F). -/
theorem and_F00F_eq_iff (op v : Word) : op &&& 0xF00F = v ↔ 4096 * fieldF op + key4 op = v.toNat := by
  rw [← and_F00F_toNat, BitVec.toNat_inj]

/-- A row with an 8-bit key (mask 0xF0FF). -/
theorem and_F0FF_eq_iff (op v : Word) : op &&& 0xF0FF = v ↔ 4096 * fieldF op + key8 op = v.toNat := by
  rw [← and_F0FF_toNat, BitVec.toNat_inj]

/-- Which words no row selects, in terms of family and key. -/
theorem unmapped_iff (op : Word) : unmapped op = true ↔
    (fieldF op = 0x0 ∧ key4 op ≠ 0x0 ∧ key4 op ≠ 0xE) ∨
    (fieldF op = 0x8 ∧ 0x8 ≤ key4 op ∧ key4 op ≠ 0xE) ∨
    (fieldF op = 0xE ∧ key4 op ≠ 0xE ∧ key4 op ≠ 0x1) ∨
    (fieldF op = 0xF ∧ key8 op ∉ [0x07, 0x0A, 0x15, 0x18, 0x1E, 0x29, 0x33, 0x55, 0x65]) := by
  have hf := fieldF_lt op
  have h4 := key4_lt op
  have h8 := key8_lt op
  simp only [unmapped, opcodeTable, List.cons_append, List.nil_append, List.all_cons, List.all_nil, OpRow.selects,
    Bool.and_true, Bool.and_eq_true, Bool.not_eq_true', beq_eq_false_iff_ne, ne_eq, and_F000_eq_iff, and_F00F_eq_iff,
    and_F0FF_eq_iff, List.mem_cons, List.not_mem_nil, or_false, not_or]
  simp only [BitVec.ofNat_eq_ofNat, BitVec.toNat_ofNat, Nat.reducePow, Nat.reduceMod]
  generalize fieldF op = f at hf ⊢
  generalize key4 op = k at h4 ⊢
  generalize key8 op = b at h8 ⊢
  interval_cases f <;> simp <;> omega

/-- A word that no row selects decodes to the no-op that carries it (R99, R126). -/
theorem decodeWord_of_unmapped {op : Word} (h : unmapped op = true) : decodeWord op = .nop op := by
  rcases (unmapped_iff op).mp h with ⟨hf, hk⟩ | ⟨hf, hk⟩ | ⟨hf, hk⟩ | ⟨hf, hk⟩
  · simp only [decodeWord, hf, decodeFamily0]
    split <;> first | rfl | omega
  · simp only [decodeWord, hf, decodeFamily8]
    split <;> first | rfl | omega
  · simp only [decodeWord, hf, decodeFamilyE]
    split <;> first | rfl | omega
  · simp only [List.mem_cons, List.not_mem_nil, or_false, not_or] at hk
    simp only [decodeWord, hf, decodeFamilyF]
    split <;> first | rfl | omega

end Sys2Proof
end

