-- ==== Sys2Proof/Laws/State.lean ====
section
/-! SUPPORT. What each named update of the state does to each field: one lemma per field per update, true by rfl, and
what a register reads as after a register was written. -/

namespace Sys2Proof.Machine

variable (s : State)

/-! ### `setReg` -/

@[simp] theorem State.setReg_regs (x : RegIx) (v : Byte) : (s.setReg x v).regs = s.regs.set x.val v := rfl
@[simp] theorem State.setReg_pc (x : RegIx) (v : Byte) : (s.setReg x v).pc = s.pc := rfl
@[simp] theorem State.setReg_index (x : RegIx) (v : Byte) : (s.setReg x v).index = s.index := rfl
@[simp] theorem State.setReg_stack (x : RegIx) (v : Byte) : (s.setReg x v).stack = s.stack := rfl
@[simp] theorem State.setReg_sp (x : RegIx) (v : Byte) : (s.setReg x v).sp = s.sp := rfl
@[simp] theorem State.setReg_dt (x : RegIx) (v : Byte) : (s.setReg x v).dt = s.dt := rfl
@[simp] theorem State.setReg_st (x : RegIx) (v : Byte) : (s.setReg x v).st = s.st := rfl
@[simp] theorem State.setReg_keys (x : RegIx) (v : Byte) : (s.setReg x v).keys = s.keys := rfl
@[simp] theorem State.setReg_fb (x : RegIx) (v : Byte) : (s.setReg x v).fb = s.fb := rfl
@[simp] theorem State.setReg_mem (x : RegIx) (v : Byte) : (s.setReg x v).mem = s.mem := rfl
@[simp] theorem State.setReg_fault (x : RegIx) (v : Byte) : (s.setReg x v).fault = s.fault := rfl
@[simp] theorem State.setReg_draws (x : RegIx) (v : Byte) : (s.setReg x v).draws = s.draws := rfl

/-! ### `setRegs` -/

@[simp] theorem State.setRegs_regs (v : Vector Byte 16) : (s.setRegs v).regs = v := rfl
@[simp] theorem State.setRegs_pc (v : Vector Byte 16) : (s.setRegs v).pc = s.pc := rfl
@[simp] theorem State.setRegs_index (v : Vector Byte 16) : (s.setRegs v).index = s.index := rfl
@[simp] theorem State.setRegs_stack (v : Vector Byte 16) : (s.setRegs v).stack = s.stack := rfl
@[simp] theorem State.setRegs_sp (v : Vector Byte 16) : (s.setRegs v).sp = s.sp := rfl
@[simp] theorem State.setRegs_dt (v : Vector Byte 16) : (s.setRegs v).dt = s.dt := rfl
@[simp] theorem State.setRegs_st (v : Vector Byte 16) : (s.setRegs v).st = s.st := rfl
@[simp] theorem State.setRegs_keys (v : Vector Byte 16) : (s.setRegs v).keys = s.keys := rfl
@[simp] theorem State.setRegs_fb (v : Vector Byte 16) : (s.setRegs v).fb = s.fb := rfl
@[simp] theorem State.setRegs_mem (v : Vector Byte 16) : (s.setRegs v).mem = s.mem := rfl
@[simp] theorem State.setRegs_fault (v : Vector Byte 16) : (s.setRegs v).fault = s.fault := rfl
@[simp] theorem State.setRegs_draws (v : Vector Byte 16) : (s.setRegs v).draws = s.draws := rfl

/-! ### `setPc` -/

@[simp] theorem State.setPc_regs (t : Word) : (s.setPc t).regs = s.regs := rfl
@[simp] theorem State.setPc_pc (t : Word) : (s.setPc t).pc = t := rfl
@[simp] theorem State.setPc_index (t : Word) : (s.setPc t).index = s.index := rfl
@[simp] theorem State.setPc_stack (t : Word) : (s.setPc t).stack = s.stack := rfl
@[simp] theorem State.setPc_sp (t : Word) : (s.setPc t).sp = s.sp := rfl
@[simp] theorem State.setPc_dt (t : Word) : (s.setPc t).dt = s.dt := rfl
@[simp] theorem State.setPc_st (t : Word) : (s.setPc t).st = s.st := rfl
@[simp] theorem State.setPc_keys (t : Word) : (s.setPc t).keys = s.keys := rfl
@[simp] theorem State.setPc_fb (t : Word) : (s.setPc t).fb = s.fb := rfl
@[simp] theorem State.setPc_mem (t : Word) : (s.setPc t).mem = s.mem := rfl
@[simp] theorem State.setPc_fault (t : Word) : (s.setPc t).fault = s.fault := rfl
@[simp] theorem State.setPc_draws (t : Word) : (s.setPc t).draws = s.draws := rfl

/-! ### `setIndex` -/

@[simp] theorem State.setIndex_regs (v : Word) : (s.setIndex v).regs = s.regs := rfl
@[simp] theorem State.setIndex_pc (v : Word) : (s.setIndex v).pc = s.pc := rfl
@[simp] theorem State.setIndex_index (v : Word) : (s.setIndex v).index = v := rfl
@[simp] theorem State.setIndex_stack (v : Word) : (s.setIndex v).stack = s.stack := rfl
@[simp] theorem State.setIndex_sp (v : Word) : (s.setIndex v).sp = s.sp := rfl
@[simp] theorem State.setIndex_dt (v : Word) : (s.setIndex v).dt = s.dt := rfl
@[simp] theorem State.setIndex_st (v : Word) : (s.setIndex v).st = s.st := rfl
@[simp] theorem State.setIndex_keys (v : Word) : (s.setIndex v).keys = s.keys := rfl
@[simp] theorem State.setIndex_fb (v : Word) : (s.setIndex v).fb = s.fb := rfl
@[simp] theorem State.setIndex_mem (v : Word) : (s.setIndex v).mem = s.mem := rfl
@[simp] theorem State.setIndex_fault (v : Word) : (s.setIndex v).fault = s.fault := rfl
@[simp] theorem State.setIndex_draws (v : Word) : (s.setIndex v).draws = s.draws := rfl

/-! ### `setDt` -/

@[simp] theorem State.setDt_regs (v : Byte) : (s.setDt v).regs = s.regs := rfl
@[simp] theorem State.setDt_pc (v : Byte) : (s.setDt v).pc = s.pc := rfl
@[simp] theorem State.setDt_index (v : Byte) : (s.setDt v).index = s.index := rfl
@[simp] theorem State.setDt_stack (v : Byte) : (s.setDt v).stack = s.stack := rfl
@[simp] theorem State.setDt_sp (v : Byte) : (s.setDt v).sp = s.sp := rfl
@[simp] theorem State.setDt_dt (v : Byte) : (s.setDt v).dt = v := rfl
@[simp] theorem State.setDt_st (v : Byte) : (s.setDt v).st = s.st := rfl
@[simp] theorem State.setDt_keys (v : Byte) : (s.setDt v).keys = s.keys := rfl
@[simp] theorem State.setDt_fb (v : Byte) : (s.setDt v).fb = s.fb := rfl
@[simp] theorem State.setDt_mem (v : Byte) : (s.setDt v).mem = s.mem := rfl
@[simp] theorem State.setDt_fault (v : Byte) : (s.setDt v).fault = s.fault := rfl
@[simp] theorem State.setDt_draws (v : Byte) : (s.setDt v).draws = s.draws := rfl

/-! ### `setSt` -/

@[simp] theorem State.setSt_regs (v : Byte) : (s.setSt v).regs = s.regs := rfl
@[simp] theorem State.setSt_pc (v : Byte) : (s.setSt v).pc = s.pc := rfl
@[simp] theorem State.setSt_index (v : Byte) : (s.setSt v).index = s.index := rfl
@[simp] theorem State.setSt_stack (v : Byte) : (s.setSt v).stack = s.stack := rfl
@[simp] theorem State.setSt_sp (v : Byte) : (s.setSt v).sp = s.sp := rfl
@[simp] theorem State.setSt_dt (v : Byte) : (s.setSt v).dt = s.dt := rfl
@[simp] theorem State.setSt_st (v : Byte) : (s.setSt v).st = v := rfl
@[simp] theorem State.setSt_keys (v : Byte) : (s.setSt v).keys = s.keys := rfl
@[simp] theorem State.setSt_fb (v : Byte) : (s.setSt v).fb = s.fb := rfl
@[simp] theorem State.setSt_mem (v : Byte) : (s.setSt v).mem = s.mem := rfl
@[simp] theorem State.setSt_fault (v : Byte) : (s.setSt v).fault = s.fault := rfl
@[simp] theorem State.setSt_draws (v : Byte) : (s.setSt v).draws = s.draws := rfl

/-! ### `setFb` -/

@[simp] theorem State.setFb_regs (f : Framebuffer) : (s.setFb f).regs = s.regs := rfl
@[simp] theorem State.setFb_pc (f : Framebuffer) : (s.setFb f).pc = s.pc := rfl
@[simp] theorem State.setFb_index (f : Framebuffer) : (s.setFb f).index = s.index := rfl
@[simp] theorem State.setFb_stack (f : Framebuffer) : (s.setFb f).stack = s.stack := rfl
@[simp] theorem State.setFb_sp (f : Framebuffer) : (s.setFb f).sp = s.sp := rfl
@[simp] theorem State.setFb_dt (f : Framebuffer) : (s.setFb f).dt = s.dt := rfl
@[simp] theorem State.setFb_st (f : Framebuffer) : (s.setFb f).st = s.st := rfl
@[simp] theorem State.setFb_keys (f : Framebuffer) : (s.setFb f).keys = s.keys := rfl
@[simp] theorem State.setFb_fb (f : Framebuffer) : (s.setFb f).fb = f := rfl
@[simp] theorem State.setFb_mem (f : Framebuffer) : (s.setFb f).mem = s.mem := rfl
@[simp] theorem State.setFb_fault (f : Framebuffer) : (s.setFb f).fault = s.fault := rfl
@[simp] theorem State.setFb_draws (f : Framebuffer) : (s.setFb f).draws = s.draws := rfl

/-! ### `setMem` -/

@[simp] theorem State.setMem_regs (m : Memory) : (s.setMem m).regs = s.regs := rfl
@[simp] theorem State.setMem_pc (m : Memory) : (s.setMem m).pc = s.pc := rfl
@[simp] theorem State.setMem_index (m : Memory) : (s.setMem m).index = s.index := rfl
@[simp] theorem State.setMem_stack (m : Memory) : (s.setMem m).stack = s.stack := rfl
@[simp] theorem State.setMem_sp (m : Memory) : (s.setMem m).sp = s.sp := rfl
@[simp] theorem State.setMem_dt (m : Memory) : (s.setMem m).dt = s.dt := rfl
@[simp] theorem State.setMem_st (m : Memory) : (s.setMem m).st = s.st := rfl
@[simp] theorem State.setMem_keys (m : Memory) : (s.setMem m).keys = s.keys := rfl
@[simp] theorem State.setMem_fb (m : Memory) : (s.setMem m).fb = s.fb := rfl
@[simp] theorem State.setMem_mem (m : Memory) : (s.setMem m).mem = m := rfl
@[simp] theorem State.setMem_fault (m : Memory) : (s.setMem m).fault = s.fault := rfl
@[simp] theorem State.setMem_draws (m : Memory) : (s.setMem m).draws = s.draws := rfl

/-! ### `useDraw` -/

@[simp] theorem State.useDraw_regs : (s.useDraw).regs = s.regs := rfl
@[simp] theorem State.useDraw_pc : (s.useDraw).pc = s.pc := rfl
@[simp] theorem State.useDraw_index : (s.useDraw).index = s.index := rfl
@[simp] theorem State.useDraw_stack : (s.useDraw).stack = s.stack := rfl
@[simp] theorem State.useDraw_sp : (s.useDraw).sp = s.sp := rfl
@[simp] theorem State.useDraw_dt : (s.useDraw).dt = s.dt := rfl
@[simp] theorem State.useDraw_st : (s.useDraw).st = s.st := rfl
@[simp] theorem State.useDraw_keys : (s.useDraw).keys = s.keys := rfl
@[simp] theorem State.useDraw_fb : (s.useDraw).fb = s.fb := rfl
@[simp] theorem State.useDraw_mem : (s.useDraw).mem = s.mem := rfl
@[simp] theorem State.useDraw_fault : (s.useDraw).fault = s.fault := rfl
@[simp] theorem State.useDraw_draws : (s.useDraw).draws = s.draws + 1 := rfl

/-! ### `advance` -/

@[simp] theorem State.advance_regs : (s.advance).regs = s.regs := rfl
@[simp] theorem State.advance_pc : (s.advance).pc = s.pc + 2 := rfl
@[simp] theorem State.advance_index : (s.advance).index = s.index := rfl
@[simp] theorem State.advance_stack : (s.advance).stack = s.stack := rfl
@[simp] theorem State.advance_sp : (s.advance).sp = s.sp := rfl
@[simp] theorem State.advance_dt : (s.advance).dt = s.dt := rfl
@[simp] theorem State.advance_st : (s.advance).st = s.st := rfl
@[simp] theorem State.advance_keys : (s.advance).keys = s.keys := rfl
@[simp] theorem State.advance_fb : (s.advance).fb = s.fb := rfl
@[simp] theorem State.advance_mem : (s.advance).mem = s.mem := rfl
@[simp] theorem State.advance_fault : (s.advance).fault = s.fault := rfl
@[simp] theorem State.advance_draws : (s.advance).draws = s.draws := rfl

/-! ### `tick` -/

@[simp] theorem State.tick_regs : (s.tick).regs = s.regs := rfl
@[simp] theorem State.tick_pc : (s.tick).pc = s.pc := rfl
@[simp] theorem State.tick_index : (s.tick).index = s.index := rfl
@[simp] theorem State.tick_stack : (s.tick).stack = s.stack := rfl
@[simp] theorem State.tick_sp : (s.tick).sp = s.sp := rfl
@[simp] theorem State.tick_dt : (s.tick).dt = tickTimer s.dt := rfl
@[simp] theorem State.tick_st : (s.tick).st = tickTimer s.st := rfl
@[simp] theorem State.tick_keys : (s.tick).keys = s.keys := rfl
@[simp] theorem State.tick_fb : (s.tick).fb = s.fb := rfl
@[simp] theorem State.tick_mem : (s.tick).mem = s.mem := rfl
@[simp] theorem State.tick_fault : (s.tick).fault = s.fault := rfl
@[simp] theorem State.tick_draws : (s.tick).draws = s.draws := rfl

/-! ### `raiseAt` -/

@[simp] theorem State.raiseAt_regs (a : Word) (c : FaultCause) (info : Word) : (s.raiseAt a c info).regs = s.regs := rfl
@[simp] theorem State.raiseAt_pc (a : Word) (c : FaultCause) (info : Word) : (s.raiseAt a c info).pc = a := rfl
@[simp] theorem State.raiseAt_index (a : Word) (c : FaultCause) (info : Word) : (s.raiseAt a c info).index = s.index := rfl
@[simp] theorem State.raiseAt_stack (a : Word) (c : FaultCause) (info : Word) : (s.raiseAt a c info).stack = s.stack := rfl
@[simp] theorem State.raiseAt_sp (a : Word) (c : FaultCause) (info : Word) : (s.raiseAt a c info).sp = s.sp := rfl
@[simp] theorem State.raiseAt_dt (a : Word) (c : FaultCause) (info : Word) : (s.raiseAt a c info).dt = s.dt := rfl
@[simp] theorem State.raiseAt_st (a : Word) (c : FaultCause) (info : Word) : (s.raiseAt a c info).st = s.st := rfl
@[simp] theorem State.raiseAt_keys (a : Word) (c : FaultCause) (info : Word) : (s.raiseAt a c info).keys = s.keys := rfl
@[simp] theorem State.raiseAt_fb (a : Word) (c : FaultCause) (info : Word) : (s.raiseAt a c info).fb = s.fb := rfl
@[simp] theorem State.raiseAt_mem (a : Word) (c : FaultCause) (info : Word) : (s.raiseAt a c info).mem = s.mem := rfl
@[simp] theorem State.raiseAt_fault (a : Word) (c : FaultCause) (info : Word) : (s.raiseAt a c info).fault = { valid := true, cause := c, pc := a, info := info } := rfl
@[simp] theorem State.raiseAt_draws (a : Word) (c : FaultCause) (info : Word) : (s.raiseAt a c info).draws = s.draws := rfl

/-! ### `raise` -/

@[simp] theorem State.raise_regs (c : FaultCause) (info : Word) : (s.raise c info).regs = s.regs := rfl
@[simp] theorem State.raise_pc (c : FaultCause) (info : Word) : (s.raise c info).pc = s.pc - 2 := rfl
@[simp] theorem State.raise_index (c : FaultCause) (info : Word) : (s.raise c info).index = s.index := rfl
@[simp] theorem State.raise_stack (c : FaultCause) (info : Word) : (s.raise c info).stack = s.stack := rfl
@[simp] theorem State.raise_sp (c : FaultCause) (info : Word) : (s.raise c info).sp = s.sp := rfl
@[simp] theorem State.raise_dt (c : FaultCause) (info : Word) : (s.raise c info).dt = s.dt := rfl
@[simp] theorem State.raise_st (c : FaultCause) (info : Word) : (s.raise c info).st = s.st := rfl
@[simp] theorem State.raise_keys (c : FaultCause) (info : Word) : (s.raise c info).keys = s.keys := rfl
@[simp] theorem State.raise_fb (c : FaultCause) (info : Word) : (s.raise c info).fb = s.fb := rfl
@[simp] theorem State.raise_mem (c : FaultCause) (info : Word) : (s.raise c info).mem = s.mem := rfl
@[simp] theorem State.raise_fault (c : FaultCause) (info : Word) : (s.raise c info).fault = { valid := true, cause := c, pc := s.pc - 2, info := info } := rfl
@[simp] theorem State.raise_draws (c : FaultCause) (info : Word) : (s.raise c info).draws = s.draws := rfl

/-! ### `flagThenResult` -/

@[simp] theorem State.flagThenResult_regs (c : Bool) (x : RegIx) (v : Byte) : (s.flagThenResult c x v).regs = (s.regs.set 15 (flagByte c)).set x.val v := rfl
@[simp] theorem State.flagThenResult_pc (c : Bool) (x : RegIx) (v : Byte) : (s.flagThenResult c x v).pc = s.pc := rfl
@[simp] theorem State.flagThenResult_index (c : Bool) (x : RegIx) (v : Byte) : (s.flagThenResult c x v).index = s.index := rfl
@[simp] theorem State.flagThenResult_stack (c : Bool) (x : RegIx) (v : Byte) : (s.flagThenResult c x v).stack = s.stack := rfl
@[simp] theorem State.flagThenResult_sp (c : Bool) (x : RegIx) (v : Byte) : (s.flagThenResult c x v).sp = s.sp := rfl
@[simp] theorem State.flagThenResult_dt (c : Bool) (x : RegIx) (v : Byte) : (s.flagThenResult c x v).dt = s.dt := rfl
@[simp] theorem State.flagThenResult_st (c : Bool) (x : RegIx) (v : Byte) : (s.flagThenResult c x v).st = s.st := rfl
@[simp] theorem State.flagThenResult_keys (c : Bool) (x : RegIx) (v : Byte) : (s.flagThenResult c x v).keys = s.keys := rfl
@[simp] theorem State.flagThenResult_fb (c : Bool) (x : RegIx) (v : Byte) : (s.flagThenResult c x v).fb = s.fb := rfl
@[simp] theorem State.flagThenResult_mem (c : Bool) (x : RegIx) (v : Byte) : (s.flagThenResult c x v).mem = s.mem := rfl
@[simp] theorem State.flagThenResult_fault (c : Bool) (x : RegIx) (v : Byte) : (s.flagThenResult c x v).fault = s.fault := rfl
@[simp] theorem State.flagThenResult_draws (c : Bool) (x : RegIx) (v : Byte) : (s.flagThenResult c x v).draws = s.draws := rfl

/-! ### `skipIf` -/

@[simp] theorem State.skipIf_regs (c : Bool) : (s.skipIf c).regs = s.regs := by cases c <;> rfl
@[simp] theorem State.skipIf_pc (c : Bool) : (s.skipIf c).pc = if c then s.pc + 2 else s.pc := by
  cases c <;> rfl
@[simp] theorem State.skipIf_index (c : Bool) : (s.skipIf c).index = s.index := by cases c <;> rfl
@[simp] theorem State.skipIf_stack (c : Bool) : (s.skipIf c).stack = s.stack := by cases c <;> rfl
@[simp] theorem State.skipIf_sp (c : Bool) : (s.skipIf c).sp = s.sp := by cases c <;> rfl
@[simp] theorem State.skipIf_dt (c : Bool) : (s.skipIf c).dt = s.dt := by cases c <;> rfl
@[simp] theorem State.skipIf_st (c : Bool) : (s.skipIf c).st = s.st := by cases c <;> rfl
@[simp] theorem State.skipIf_keys (c : Bool) : (s.skipIf c).keys = s.keys := by cases c <;> rfl
@[simp] theorem State.skipIf_fb (c : Bool) : (s.skipIf c).fb = s.fb := by cases c <;> rfl
@[simp] theorem State.skipIf_mem (c : Bool) : (s.skipIf c).mem = s.mem := by cases c <;> rfl
@[simp] theorem State.skipIf_fault (c : Bool) : (s.skipIf c).fault = s.fault := by cases c <;> rfl
@[simp] theorem State.skipIf_draws (c : Bool) : (s.skipIf c).draws = s.draws := by cases c <;> rfl

/-! ### Registers -/

theorem State.reg_def (x : RegIx) : s.reg x = s.regs[x.val] := rfl

/-- Reading a register after writing one (10_state.md R21: no two registers alias, none is hardwired). -/
theorem State.reg_setReg (x y : RegIx) (v : Byte) : (s.setReg x v).reg y = if x = y then v else s.reg y := by
  simp only [State.reg, State.setReg, Vector.getElem_set, Fin.ext_iff]

@[simp] theorem State.reg_setReg_same (x : RegIx) (v : Byte) : (s.setReg x v).reg x = v := by
  simp [State.reg_setReg]

theorem State.reg_setReg_other {x y : RegIx} (h : x ≠ y) (v : Byte) : (s.setReg x v).reg y = s.reg y := by
  simp [State.reg_setReg, h]

/-- Two register files that read the same are the same. -/
theorem regs_ext {v w : Vector Byte 16} (h : ∀ x : RegIx, v[x.val] = w[x.val]) : v = w := by
  apply Vector.ext
  intro k hk
  exact h ⟨k, hk⟩

@[simp] theorem State.reg_setPc (t : Word) (y : RegIx) : (s.setPc t).reg y = s.reg y := rfl
@[simp] theorem State.reg_setIndex (v : Word) (y : RegIx) : (s.setIndex v).reg y = s.reg y := rfl
@[simp] theorem State.reg_setDt (v : Byte) (y : RegIx) : (s.setDt v).reg y = s.reg y := rfl
@[simp] theorem State.reg_setSt (v : Byte) (y : RegIx) : (s.setSt v).reg y = s.reg y := rfl
@[simp] theorem State.reg_setFb (f : Framebuffer) (y : RegIx) : (s.setFb f).reg y = s.reg y := rfl
@[simp] theorem State.reg_setMem (m : Memory) (y : RegIx) : (s.setMem m).reg y = s.reg y := rfl
@[simp] theorem State.reg_useDraw (y : RegIx) : (s.useDraw).reg y = s.reg y := rfl
@[simp] theorem State.reg_advance (y : RegIx) : (s.advance).reg y = s.reg y := rfl
@[simp] theorem State.reg_tick (y : RegIx) : (s.tick).reg y = s.reg y := rfl
@[simp] theorem State.reg_raiseAt (a : Word) (c : FaultCause) (info : Word) (y : RegIx) : (s.raiseAt a c info).reg y = s.reg y := rfl
@[simp] theorem State.reg_raise (c : FaultCause) (info : Word) (y : RegIx) : (s.raise c info).reg y = s.reg y := rfl
@[simp] theorem State.reg_skipIf (c : Bool) (y : RegIx) : (s.skipIf c).reg y = s.reg y := by cases c <;> rfl

@[simp] theorem State.reg_setRegs (v : Vector Byte 16) (y : RegIx) : (s.setRegs v).reg y = v[y.val] := rfl

/-- A flag instruction's two writes (42_alu.md R173): register `x` holds the result, register 0xF the flag unless it
is register `x`, every other register its old value. -/
theorem State.reg_flagThenResult (c : Bool) (x : RegIx) (v : Byte) (y : RegIx) :
    (s.flagThenResult c x v).reg y = if x = y then v else if flagReg = y then flagByte c else s.reg y := by
  simp only [State.flagThenResult, State.reg_setReg]

/-- Writing back what a register holds changes nothing. -/
theorem State.setReg_reg (x : RegIx) : s.setReg x (s.reg x) = s := by
  cases s
  simp [State.setReg, State.reg]

/-! ### Other parts of a cycle -/

@[simp] theorem State.skipIf_true : s.skipIf true = s.setPc (s.pc + 2) := rfl

@[simp] theorem State.skipIf_false : s.skipIf false = s := rfl

@[simp] theorem State.handlerAddress_advance : s.advance.handlerAddress = s.pc := by
  simp [State.handlerAddress, State.advance]

/-- Raising in a handler undoes the advance: only the fault register differs from the state the cycle began in
(60_exceptions.md R252 (a), (b)). -/
theorem State.raise_advance (c : FaultCause) (info : Word) :
    s.advance.raise c info = { s with fault := { valid := true, cause := c, pc := s.pc, info := info } } := by
  simp [State.raise, State.handlerAddress, State.advance, State.raiseAt, State.setPc]

theorem State.endCycle_of_valid {t : State} (h : t.fault.valid = true) : t.endCycle = t := by
  simp [State.endCycle, h]

theorem State.endCycle_of_not_valid {t : State} (h : t.fault.valid = false) : t.endCycle = t.tick := by
  simp [State.endCycle, h]

/-- One tick in integers: down by one, never below 0 (40_cycle_driver.md R125). -/
theorem tickTimer_toNat (t : Byte) : (tickTimer t).toNat = t.toNat - 1 := by
  unfold tickTimer
  split
  · simp_all
  · rename_i h
    have : t.toNat ≠ 0 := fun h0 => h (BitVec.eq_of_toNat_eq (by simpa using h0))
    have := t.isLt
    have h1 : (1 : Byte).toNat = 1 := rfl
    rw [BitVec.toNat_sub, h1]
    omega

/-! ### Stack -/

/-- A push with a free slot (10_state.md R28, R29). -/
theorem State.push_of_lt (v : Word) (h : s.sp.val < 16) :
    s.push v = some { s with stack := s.stack.set s.sp.val v, sp := ⟨s.sp.val + 1, Nat.succ_lt_succ h⟩ } := by
  simp [State.push, h]

/-- A push on a full stack. -/
theorem State.push_full (v : Word) (h : s.sp = 16) : s.push v = none := by
  simp [State.push, h]

/-- A pop with a slot in use. -/
theorem State.pop_of_pos (h : 0 < s.sp.val) :
    s.pop = some (s.stack[s.sp.val - 1], { s with sp := ⟨s.sp.val - 1, by omega⟩ }) := by
  simp [State.pop, h]

/-- A pop of an empty stack. -/
theorem State.pop_empty (h : s.sp = 0) : s.pop = none := by
  simp [State.pop, h]

end Sys2Proof.Machine
end

