-- ==== Sys2Proof/Laws/Operands.lean ====
section
/-! SUPPORT. The operand operations in integers: widened immediates, the range check and the `info` of a memory fault,
the digits, the registers of block-load and block-store, and the first pressed key. -/

namespace Sys2Proof.Machine

@[simp] theorem zextAddr_toNat (nnn : Addr) : (zextAddr nnn).toNat = nnn.toNat := by
  have := nnn.isLt
  simp only [zextAddr, BitVec.toNat_setWidth]
  omega

@[simp] theorem zextByte_toNat (v : Byte) : (zextByte v).toNat = v.toNat := by
  have := v.isLt
  simp only [zextByte, BitVec.toNat_setWidth]
  omega

/-- The range check in integers (20_memory.md R67). -/
theorem State.inRange_iff (s : State) (len : Nat) :
    s.inRange len = true ↔ len = 0 ∨ s.index.toNat + len ≤ 0x1000 := by
  simp only [State.inRange, Bool.or_eq_true, beq_iff_eq, decide_eq_true_eq]
  simp only [State.effAddr]
  omega

@[simp] theorem State.inRange_advance (s : State) (len : Nat) : s.advance.inRange len = s.inRange len := rfl

@[simp] theorem State.effAddr_advance (s : State) (k : Nat) : s.advance.effAddr k = s.effAddr k := rfl

theorem State.lowestOutside_toNat (s : State) : s.lowestOutside.toNat = max s.index.toNat 0x1000 := by
  have := s.index.isLt
  simp only [State.lowestOutside, BitVec.toNat_ofNat]
  omega

@[simp] theorem bcdDigits_length (v : Byte) : (bcdDigits v).length = 3 := rfl

/-- Each digit is its own value, no bit of it is lost (43_index_memory.md R193). -/
theorem bcdDigits_toNat (v : Byte) :
    (bcdDigits v).map BitVec.toNat = [v.toNat / 100, v.toNat / 10 % 10, v.toNat % 10] := by
  have := v.isLt
  simp only [bcdDigits, List.map_cons, List.map_nil, BitVec.toNat_ofNat, List.cons.injEq, and_true]
  omega

@[simp] theorem State.firstRegs_length (s : State) (x : Fin 16) : (s.firstRegs x.val).length = x.val := by
  have := x.isLt
  simp only [State.firstRegs, List.length_take, Vector.length_toList]
  omega

theorem State.firstRegs_getElem (s : State) (n k : Nat) (h : k < (s.firstRegs n).length) (hk : k < 16) :
    (s.firstRegs n)[k] = s.reg ⟨k, hk⟩ := by
  simp [State.firstRegs, State.reg]

theorem State.loadedRegs_getElem (s : State) (n : Nat) (z : RegIx) :
    (s.loadedRegs n)[z.val] = if z.val < n then s.mem.read (s.effAddr z.val) else s.reg z := by
  simp [State.loadedRegs]

/-- The first pressed key, when there is one: it is pressed and no lower key is (45_keypad_timers.md R232). -/
theorem State.firstKey_some {s : State} {k : Nat} (h : s.firstKey = some k) :
    k < 16 ∧ s.key k = true ∧ ∀ j, j < k → s.key j = false := by
  obtain ⟨hk, as, bs, happ, hpre⟩ := List.find?_eq_some_iff_append.mp h
  have hlen : as.length = k := by
    have h1 := congrArg (fun l => l[as.length]?) happ
    simp only [List.getElem?_append_right (Nat.le_refl _), Nat.sub_self, List.getElem?_cons_zero] at h1
    have h2 : as.length < 16 := by
      have := congrArg List.length happ
      simp at this
      omega
    rw [List.getElem?_range h2] at h1
    exact Option.some.inj h1
  have hlt : k < 16 := by
    have := congrArg List.length happ
    simp at this
    omega
  refine ⟨hlt, hk, fun j hj => ?_⟩
  have hmem : j ∈ as := by
    have h1 := congrArg (fun l => l[j]?) happ
    simp only [List.getElem?_range (show j < 16 by omega)] at h1
    rw [List.getElem?_append_left (by omega)] at h1
    exact List.mem_of_getElem? h1.symm
  simpa using hpre j hmem

/-- No key is found exactly when no key is pressed. -/
theorem State.firstKey_none {s : State} (h : s.firstKey = none) (k : Nat) (hk : k < 16) : s.key k = false := by
  have := List.find?_eq_none.mp h k (by simpa using hk)
  simpa using this

end Sys2Proof.Machine
end

