-- ==== Sys2Proof/Laws/Display.lean ====
section
/-! SUPPORT. The blitter (44_display.md): which cells a sprite reaches and in which order, that it reaches no cell twice
(R214), and what the toggle loop leaves in the framebuffer and in the flag. -/

namespace Sys2Proof.Machine

/-- A cell toggled is flipped and no other cell is (R211). -/
theorem Framebuffer.lit_toggle (f : Framebuffer) (c k : Nat) (hk : k < 2048) :
    (f.toggle c).lit k = if c = k then !f.lit k else f.lit k := by
  have hp : (BitVec.twoPow 2048 c).getLsbD k = decide (c = k) := by
    rw [BitVec.getLsbD_twoPow]
    by_cases h : c = k
    · subst h
      simpa using hk
    · simp [h]
  simp only [Framebuffer.lit, Framebuffer.toggle]
  rw [BitVec.getLsbD_xor, hp]
  by_cases h : c = k <;> simp [h]

/-- A cell past the last one is never lit. -/
theorem Framebuffer.lit_past (f : Framebuffer) {k : Nat} (hk : 2047 < k) : f.lit k = false := by
  exact BitVec.getLsbD_of_ge f k (by omega)

/-- Two framebuffers with the same lit cells are the same. -/
theorem Framebuffer.ext_lit {f g : Framebuffer} (h : ∀ k, k < 2048 → f.lit k = g.lit k) : f = g := by
  apply BitVec.eq_of_getLsbD_eq
  intro k hk
  exact h k hk

/-! ### Cells of a sprite -/

theorem mem_rowCells {start : Nat} {b : Byte} {k : Nat} :
    k ∈ rowCells start b ↔ ∃ c, c < 8 ∧ b.getLsbD (7 - c) = true ∧ start + c = k := by
  simp only [rowCells, List.mem_map, List.mem_filter, List.mem_range, and_assoc]

/-- The cells of a sprite are those of its set bits (R211, R212, R213). -/
theorem mem_spriteCells {px py r : Nat} {rows : List Byte} {k : Nat} :
    k ∈ spriteCells px py r rows ↔
      ∃ (j c : Nat) (hj : j < rows.length), c < 8 ∧ rows[j].getLsbD (7 - c) = true ∧
        64 * (py + (r + j)) + (px + c) = k := by
  induction rows generalizing r with
  | nil => simp [spriteCells]
  | cons b rows ih =>
    simp only [spriteCells, List.mem_append, mem_rowCells, ih]
    constructor
    · rintro (⟨c, hc, hb, rfl⟩ | ⟨j, c, hj, hc, hb, rfl⟩)
      · exact ⟨0, c, by simp, hc, hb, by omega⟩
      · exact ⟨j + 1, c, by simpa using hj, hc, hb, by omega⟩
    · rintro ⟨j, c, hj, hc, hb, rfl⟩
      cases j with
      | zero => exact .inl ⟨c, hc, hb, by omega⟩
      | succ j => exact .inr ⟨j, c, by simpa using hj, hc, hb, by omega⟩

/-- Scan order is rising order: every later cell has a higher index, so no cell is reached twice (R214). -/
theorem spriteCells_pairwise (px py r : Nat) (rows : List Byte) :
    (spriteCells px py r rows).Pairwise (· < ·) := by
  induction rows generalizing r with
  | nil => simp [spriteCells]
  | cons b rows ih =>
    refine List.pairwise_append.mpr ⟨?_, ih (r + 1), fun u hu v hv => ?_⟩
    · exact ((List.pairwise_lt_range (n := 8)).filter _).map _ (fun _ _ h => Nat.add_lt_add_left h _)
    · obtain ⟨c, hc, -, rfl⟩ := mem_rowCells.mp hu
      obtain ⟨j, d, -, -, -, rfl⟩ := mem_spriteCells.mp hv
      omega

/-- A cell of a draw, in terms of the state it begins in. -/
theorem State.mem_drawCells {s : State} {x y : RegIx} {n k : Nat} :
    k ∈ s.drawCells x y n ↔ ∃ r c, r < n ∧ c < 8 ∧ (s.mem.read (s.index.toNat + r)).getLsbD (7 - c) = true ∧
      64 * ((s.reg y).toNat % 32 + r) + ((s.reg x).toNat % 64 + c) = k := by
  simp only [State.drawCells, mem_spriteCells, Memory.readBytes_getElem, Memory.readBytes_length, State.effAddr,
    Nat.zero_add, Nat.add_zero]
  constructor
  · rintro ⟨j, c, hj, hc, hb, hk⟩
    exact ⟨j, c, hj, hc, hb, hk⟩
  · rintro ⟨j, c, hj, hc, hb, hk⟩
    exact ⟨j, c, hj, hc, hb, hk⟩

theorem State.drawCells_pairwise (s : State) (x y : RegIx) (n : Nat) : (s.drawCells x y n).Pairwise (· < ·) :=
  spriteCells_pairwise _ _ _ _

/-- Even the largest cell index fits the fault's `info` (R212). -/
theorem State.drawCells_le {s : State} {x y : RegIx} {n : Fin 16} {k : Nat} (h : k ∈ s.drawCells x y n.val) :
    k ≤ 2950 := by
  obtain ⟨r, c, hr, hc, -, rfl⟩ := State.mem_drawCells.mp h
  have := n.isLt
  omega

@[simp] theorem State.drawCells_advance (s : State) (x y : RegIx) (n : Nat) :
    s.advance.drawCells x y n = s.drawCells x y n := rfl

/-! ### The toggle loop -/

theorem toggleCells_fst (cells : List Nat) (h : cells.Pairwise (· < ·)) (hlt : ∀ c ∈ cells, c < 2048) (b : Bool)
    (f : Framebuffer) : (toggleCells cells b f).1 = (b || cells.any f.lit) := by
  induction cells generalizing b f with
  | nil => simp [toggleCells]
  | cons c rest ih =>
    rw [List.pairwise_cons] at h
    simp only [toggleCells, ih h.2 (fun d hd => hlt d (by simp [hd])), List.any_cons, Bool.or_assoc]
    congr 2
    rw [Bool.eq_iff_iff]
    simp only [List.any_eq_true]
    have hsame : ∀ d ∈ rest, (f.toggle c).lit d = f.lit d := fun d hd => by
      rw [Framebuffer.lit_toggle _ _ _ (hlt d (by simp [hd])), if_neg (Nat.ne_of_lt (h.1 d hd))]
    constructor
    · rintro ⟨d, hd, hl⟩
      exact ⟨d, hd, by rwa [hsame d hd] at hl⟩
    · rintro ⟨d, hd, hl⟩
      exact ⟨d, hd, by rwa [hsame d hd]⟩

theorem toggleCells_snd (cells : List Nat) (h : cells.Pairwise (· < ·)) (b : Bool)
    (f : Framebuffer) (k : Nat) (hk : k < 2048) :
    (toggleCells cells b f).2.lit k = if k ∈ cells then !f.lit k else f.lit k := by
  induction cells generalizing b f with
  | nil => simp [toggleCells]
  | cons c rest ih =>
    rw [List.pairwise_cons] at h
    simp only [toggleCells, ih h.2, Framebuffer.lit_toggle _ _ _ hk, List.mem_cons]
    by_cases hc : c = k
    · subst hc
      have : c ∉ rest := fun hm => Nat.lt_irrefl _ (h.1 c hm)
      simp [this]
    · simp [hc, show k ≠ c from fun e => hc e.symm]

/-! ### Draw -/

/-- A draw inside memory and inside the framebuffer (R211): the cells of the set bits are toggled and register 0xF tells
of a collision; nothing else changes. -/
theorem execDrwVxVyN_drawn {x y : RegIx} {n : Fin 16} {s : State} (hr : s.inRange n.val = true)
    (hc : ∀ k ∈ s.drawCells x y n.val, k ≤ 2047) :
    ∃ f : Framebuffer, execDrwVxVyN x y n s =
        .next ((s.setFb f).setReg flagReg (flagByte ((s.drawCells x y n.val).any s.fb.lit))) ∧
      ∀ k, k < 2048 → f.lit k = if k ∈ s.drawCells x y n.val then !s.fb.lit k else s.fb.lit k := by
  have hnone : (s.drawCells x y n.val).find? (fun c => decide (2047 < c)) = none :=
    List.find?_eq_none.mpr fun k hk => by simpa using hc k hk
  refine ⟨_, ?_, fun k hk => toggleCells_snd _ (s.drawCells_pairwise x y n.val) false s.fb k hk⟩
  simp only [execDrwVxVyN, hr, if_true, hnone]
  rw [toggleCells_fst _ (s.drawCells_pairwise x y n.val) (fun c h => Nat.lt_succ_of_le (hc c h)), Bool.false_or]

/-- A draw inside memory with a cell past the last one (R212): the fault names the first such cell. -/
theorem execDrwVxVyN_past {x y : RegIx} {n : Fin 16} {s : State} (hr : s.inRange n.val = true) {k : Nat}
    (hk : k ∈ s.drawCells x y n.val) (hpast : 2047 < k)
    (hfirst : ∀ j ∈ s.drawCells x y n.val, j < k → j ≤ 2047) :
    execDrwVxVyN x y n s = .next (s.raise .framebufferOutOfRange (BitVec.ofNat 16 k)) := by
  have hsome : (s.drawCells x y n.val).find? (fun c => decide (2047 < c)) = some k := by
    cases hf : (s.drawCells x y n.val).find? (fun c => decide (2047 < c)) with
    | none => exact absurd hpast (by simpa using List.find?_eq_none.mp hf k hk)
    | some j =>
      obtain ⟨hj, as, bs, happ, hpre⟩ := List.find?_eq_some_iff_append.mp hf
      have hj' : 2047 < j := by simpa using hj
      have hjm : j ∈ s.drawCells x y n.val := by rw [happ]; simp
      have hp := s.drawCells_pairwise x y n.val
      rw [happ] at hp hk
      rcases List.mem_append.mp hk with hka | hka
      · have := hpre k hka
        simp only [Bool.not_eq_true', decide_eq_false_iff_not] at this
        exact absurd hpast this
      · rcases List.mem_cons.mp hka with rfl | hka
        · rfl
        · have hlt := (List.pairwise_cons.mp (List.pairwise_append.mp hp).2.1).1 k hka
          have := hfirst j hjm hlt
          omega
  simp only [execDrwVxVyN, hr, if_true, hsome]

/-- A draw that reads past memory (60_exceptions.md R256): checked before any cell (R261). -/
theorem execDrwVxVyN_unreadable {x y : RegIx} {n : Fin 16} {s : State} (hr : s.inRange n.val = false) :
    execDrwVxVyN x y n s = .next (s.raise .memReadOutOfRange s.lowestOutside) := by
  simp [execDrwVxVyN, hr]

/-- Everything a draw can do. -/
theorem execDrwVxVyN_cases {x y : RegIx} {n : Fin 16} {s t : State} (h : execDrwVxVyN x y n s = .next t) :
    (s.inRange n.val = false ∧ t = s.raise .memReadOutOfRange s.lowestOutside) ∨
    (s.inRange n.val = true ∧ ∃ k ∈ s.drawCells x y n.val, 2047 < k ∧
      t = s.raise .framebufferOutOfRange (BitVec.ofNat 16 k)) ∨
    (s.inRange n.val = true ∧ (∀ k ∈ s.drawCells x y n.val, k ≤ 2047) ∧
      ∃ f, t = (s.setFb f).setReg flagReg (flagByte ((s.drawCells x y n.val).any s.fb.lit)) ∧
        ∀ k, k < 2048 → f.lit k = if k ∈ s.drawCells x y n.val then !s.fb.lit k else s.fb.lit k) := by
  cases hr : s.inRange n.val with
  | false =>
    rw [execDrwVxVyN_unreadable hr] at h
    exact .inl ⟨rfl, (Host.Outcome.next.inj h).symm⟩
  | true =>
    by_cases hall : ∀ k ∈ s.drawCells x y n.val, k ≤ 2047
    · obtain ⟨f, hf, hl⟩ := execDrwVxVyN_drawn hr hall
      rw [hf] at h
      exact .inr (.inr ⟨rfl, hall, f, (Host.Outcome.next.inj h).symm, hl⟩)
    · cases hf : (s.drawCells x y n.val).find? (fun c => decide (2047 < c)) with
      | none =>
        exact absurd (fun k hk => by simpa using List.find?_eq_none.mp hf k hk) hall
      | some k =>
        simp only [execDrwVxVyN, hr, if_true, hf] at h
        exact .inr (.inl ⟨rfl, k, List.mem_of_find?_eq_some hf, by simpa using List.find?_some hf,
          (Host.Outcome.next.inj h).symm⟩)

end Sys2Proof.Machine
end

