-- ==== Sys2Proof/Laws/Exec.lean ====
section
/-! SUPPORT. What the handlers can do: each answers next; the faulting ones, case by case; and in every case either the
fault register is left alone or the whole answer is a raise. -/

namespace Sys2Proof.Machine

/-! ### Control flow -/

theorem execRet_of_pos {s : State} (h : 0 < s.sp.val) : execRet s =
    .next { s with pc := s.stack[s.sp.val - 1], sp := ⟨s.sp.val - 1, by omega⟩ } := by
  simp [execRet, State.pop_of_pos s h, State.setPc]

theorem execRet_empty {s : State} (h : s.sp = 0) : execRet s = .next (s.raise .stackUnderflow 0) := by
  simp [execRet, State.pop_empty s h]

theorem execCallNnn_of_lt {nnn : Addr} {s : State} (h : s.sp.val < 16) : execCallNnn nnn s =
    .next { s with pc := zextAddr nnn, stack := s.stack.set s.sp.val s.pc,
                   sp := ⟨s.sp.val + 1, Nat.succ_lt_succ h⟩ } := by
  simp [execCallNnn, State.push_of_lt s s.pc h, State.setPc]

theorem execCallNnn_full {nnn : Addr} {s : State} (h : s.sp = 16) :
    execCallNnn nnn s = .next (s.raise .stackOverflow 16) := by
  simp [execCallNnn, State.push_full s s.pc h]

/-- Everything a return can do. -/
theorem execRet_cases {s t : State} (h : execRet s = .next t) :
    (s.sp = 0 ∧ t = s.raise .stackUnderflow 0) ∨
    (∃ hp : 0 < s.sp.val, t = { s with pc := s.stack[s.sp.val - 1], sp := ⟨s.sp.val - 1, by omega⟩ }) := by
  by_cases hp : 0 < s.sp.val
  · rw [execRet_of_pos hp] at h
    exact .inr ⟨hp, (Host.Outcome.next.inj h).symm⟩
  · have h0 : s.sp = 0 := Fin.ext (by simpa using hp)
    rw [execRet_empty h0] at h
    exact .inl ⟨h0, (Host.Outcome.next.inj h).symm⟩

/-- Everything a call can do. -/
theorem execCallNnn_cases {nnn : Addr} {s t : State} (h : execCallNnn nnn s = .next t) :
    (s.sp = 16 ∧ t = s.raise .stackOverflow 16) ∨
    (∃ hp : s.sp.val < 16, t = { s with pc := zextAddr nnn, stack := s.stack.set s.sp.val s.pc,
                                        sp := ⟨s.sp.val + 1, Nat.succ_lt_succ hp⟩ }) := by
  by_cases hp : s.sp.val < 16
  · rw [execCallNnn_of_lt hp] at h
    exact .inr ⟨hp, (Host.Outcome.next.inj h).symm⟩
  · have h16 : s.sp = 16 := by
      have := s.sp.isLt
      apply Fin.ext
      show s.sp.val = 16
      omega
    rw [execCallNnn_full h16] at h
    exact .inl ⟨h16, (Host.Outcome.next.inj h).symm⟩

/-! ### Memory instructions -/

theorem execLdBVx_cases {x : RegIx} {s t : State} (h : execLdBVx x s = .next t) :
    (s.inRange 3 = false ∧ t = s.raise .memWriteOutOfRange s.lowestOutside) ∨
    (s.inRange 3 = true ∧ t = s.setMem (s.mem.writeBytes s.index.toNat (bcdDigits (s.reg x)))) := by
  cases hr : s.inRange 3 <;> simp only [execLdBVx, hr, if_true, Bool.false_eq_true, if_false] at h
  · exact .inl ⟨rfl, (Host.Outcome.next.inj h).symm⟩
  · exact .inr ⟨rfl, (Host.Outcome.next.inj h).symm⟩

theorem execLdMemVx_cases {x : Fin 16} {s t : State} (h : execLdMemVx x s = .next t) :
    (s.inRange x.val = false ∧ t = s.raise .memWriteOutOfRange s.lowestOutside) ∨
    (s.inRange x.val = true ∧ t = s.setMem (s.mem.writeBytes s.index.toNat (s.firstRegs x.val))) := by
  cases hr : s.inRange x.val <;> simp only [execLdMemVx, hr, if_true, Bool.false_eq_true, if_false] at h
  · exact .inl ⟨rfl, (Host.Outcome.next.inj h).symm⟩
  · exact .inr ⟨rfl, (Host.Outcome.next.inj h).symm⟩

theorem execLdVxMem_cases {x : Fin 16} {s t : State} (h : execLdVxMem x s = .next t) :
    (s.inRange x.val = false ∧ t = s.raise .memReadOutOfRange s.lowestOutside) ∨
    (s.inRange x.val = true ∧ t = s.setRegs (s.loadedRegs x.val)) := by
  cases hr : s.inRange x.val <;> simp only [execLdVxMem, hr, if_true, Bool.false_eq_true, if_false] at h
  · exact .inl ⟨rfl, (Host.Outcome.next.inj h).symm⟩
  · exact .inr ⟨rfl, (Host.Outcome.next.inj h).symm⟩

/-! ### Keypad -/

/-- Everything a key skip can do. -/
theorem State.keySkip_cases (s : State) (x : RegIx) (pressed : Bool) :
    (15 < (s.reg x).toNat ∧ s.keySkip x pressed = s.raise .keyIndexOutOfRange (zextByte (s.reg x))) ∨
    ((s.reg x).toNat ≤ 15 ∧ s.keySkip x pressed = s.skipIf (s.key (s.reg x).toNat == pressed)) := by
  by_cases h : 15 < (s.reg x).toNat
  · exact .inl ⟨h, by simp [State.keySkip, h]⟩
  · exact .inr ⟨by omega, by simp [State.keySkip, h]⟩

/-- Everything wait-for-key can do. -/
theorem execLdVxK_cases {x : RegIx} {s t : State} (h : execLdVxK x s = .next t) :
    (∃ k, k < 16 ∧ s.key k = true ∧ (∀ j, j < k → s.key j = false) ∧ t = s.setReg x (BitVec.ofNat 8 k)) ∨
    ((∀ k, k < 16 → s.key k = false) ∧ t = s.setPc (s.pc - 2)) := by
  cases hk : s.firstKey with
  | some k =>
    simp only [execLdVxK, hk] at h
    obtain ⟨h16, hp, hl⟩ := State.firstKey_some hk
    exact .inl ⟨k, h16, hp, hl, (Host.Outcome.next.inj h).symm⟩
  | none =>
    simp only [execLdVxK, hk] at h
    exact .inr ⟨State.firstKey_none hk, (Host.Outcome.next.inj h).symm⟩

/-! ### All handlers -/

/-- Every handler answers next: no instruction stops the machine (log 21). -/
theorem exec_answers (i : Instr) (s : State) : ∃ t, exec i s = .next t := by
  cases i with
  | ret => simp only [exec, execRet]; split <;> exact ⟨_, rfl⟩
  | callNnn nnn => simp only [exec, execCallNnn]; split <;> exact ⟨_, rfl⟩
  | drwVxVyN x y n =>
    simp only [exec, execDrwVxVyN]
    split
    · split <;> exact ⟨_, rfl⟩
    · exact ⟨_, rfl⟩
  | ldVxK x => simp only [exec, execLdVxK]; split <;> exact ⟨_, rfl⟩
  | ldBVx x => simp only [exec, execLdBVx]; split <;> exact ⟨_, rfl⟩
  | ldMemVx x => simp only [exec, execLdMemVx]; split <;> exact ⟨_, rfl⟩
  | ldVxMem x => simp only [exec, execLdVxMem]; split <;> exact ⟨_, rfl⟩
  | _ => exact ⟨_, rfl⟩

/-- A handler either leaves the fault register alone, or its whole answer is a raise of a named cause. -/
theorem exec_raises_or_keeps {i : Instr} {s t : State} (h : exec i s = .next t) :
    t.fault = s.fault ∨ ∃ c info, c ≠ FaultCause.none ∧ t = s.raise c info := by
  cases i with
  | ret =>
    rcases execRet_cases h with ⟨-, rfl⟩ | ⟨-, rfl⟩
    · exact .inr ⟨_, _, by decide, rfl⟩
    · exact .inl rfl
  | callNnn nnn =>
    rcases execCallNnn_cases h with ⟨-, rfl⟩ | ⟨-, rfl⟩
    · exact .inr ⟨_, _, by decide, rfl⟩
    · exact .inl rfl
  | drwVxVyN x y n =>
    rcases execDrwVxVyN_cases h with ⟨-, rfl⟩ | ⟨-, k, -, -, rfl⟩ | ⟨-, -, f, rfl, -⟩
    · exact .inr ⟨_, _, by decide, rfl⟩
    · exact .inr ⟨_, _, by decide, rfl⟩
    · exact .inl rfl
  | ldVxK x =>
    rcases execLdVxK_cases h with ⟨k, -, -, -, rfl⟩ | ⟨-, rfl⟩ <;> exact .inl rfl
  | ldBVx x =>
    rcases execLdBVx_cases h with ⟨-, rfl⟩ | ⟨-, rfl⟩
    · exact .inr ⟨_, _, by decide, rfl⟩
    · exact .inl rfl
  | ldMemVx x =>
    rcases execLdMemVx_cases h with ⟨-, rfl⟩ | ⟨-, rfl⟩
    · exact .inr ⟨_, _, by decide, rfl⟩
    · exact .inl rfl
  | ldVxMem x =>
    rcases execLdVxMem_cases h with ⟨-, rfl⟩ | ⟨-, rfl⟩
    · exact .inr ⟨_, _, by decide, rfl⟩
    · exact .inl rfl
  | skpVx x =>
    obtain rfl := (Host.Outcome.next.inj h).symm
    rcases s.keySkip_cases x true with ⟨-, hk⟩ | ⟨-, hk⟩ <;> rw [hk]
    · exact .inr ⟨_, _, by decide, rfl⟩
    · exact .inl (by simp)
  | sknpVx x =>
    obtain rfl := (Host.Outcome.next.inj h).symm
    rcases s.keySkip_cases x false with ⟨-, hk⟩ | ⟨-, hk⟩ <;> rw [hk]
    · exact .inr ⟨_, _, by decide, rfl⟩
    · exact .inl (by simp)
  | _ =>
    obtain rfl := (Host.Outcome.next.inj h).symm
    exact .inl (by first | rfl | exact State.skipIf_fault _ _)

end Sys2Proof.Machine
end

