-- ==== Sys2Proof/Laws/PerInstr.lean ====
section
/-! SUPPORT. Statements about every instruction as syntax, one lemma per constructor: decoding the word of a well-formed
instruction gives it back. -/

namespace Sys2Proof.Laws

/-- The word of a well-formed instruction decodes to it. -/
def RoundTrip.Statement (i : Instr) : Prop := i.wellFormed = true → decodeWord (encodeWord i) = i

namespace RoundTrip

theorem cls : Statement (.cls) := by
  intro h
  rfl

theorem ret : Statement (.ret) := by
  intro h
  rfl

theorem jpNnn (nnn : Addr) : Statement (.jpNnn nnn) := by
  intro h
  simp [encodeWord, decodeWord, fieldF_wordNNN, fieldNNN_wordNNN]

theorem callNnn (nnn : Addr) : Statement (.callNnn nnn) := by
  intro h
  simp [encodeWord, decodeWord, fieldF_wordNNN, fieldNNN_wordNNN]

theorem seVxKk (x : Fin 16) (kk : Byte) : Statement (.seVxKk x kk) := by
  intro h
  simp [encodeWord, decodeWord, fieldF_wordXKK, fieldX_wordXKK, fieldKK_wordXKK]

theorem sneVxKk (x : Fin 16) (kk : Byte) : Statement (.sneVxKk x kk) := by
  intro h
  simp [encodeWord, decodeWord, fieldF_wordXKK, fieldX_wordXKK, fieldKK_wordXKK]

theorem seVxVy (x : Fin 16) (y : Fin 16) : Statement (.seVxVy x y) := by
  intro h
  simp [encodeWord, decodeWord, fieldF_wordOfNibbles, fieldX_wordOfNibbles, fieldY_wordOfNibbles]

theorem ldVxKk (x : Fin 16) (kk : Byte) : Statement (.ldVxKk x kk) := by
  intro h
  simp [encodeWord, decodeWord, fieldF_wordXKK, fieldX_wordXKK, fieldKK_wordXKK]

theorem addVxKk (x : Fin 16) (kk : Byte) : Statement (.addVxKk x kk) := by
  intro h
  simp [encodeWord, decodeWord, fieldF_wordXKK, fieldX_wordXKK, fieldKK_wordXKK]

theorem ldVxVy (x : Fin 16) (y : Fin 16) : Statement (.ldVxVy x y) := by
  intro h
  simp [encodeWord, decodeWord, decodeFamily8, fieldF_wordOfNibbles, fieldX_wordOfNibbles, fieldY_wordOfNibbles, key4_wordOfNibbles]

theorem orVxVy (x : Fin 16) (y : Fin 16) : Statement (.orVxVy x y) := by
  intro h
  simp [encodeWord, decodeWord, decodeFamily8, fieldF_wordOfNibbles, fieldX_wordOfNibbles, fieldY_wordOfNibbles, key4_wordOfNibbles]

theorem andVxVy (x : Fin 16) (y : Fin 16) : Statement (.andVxVy x y) := by
  intro h
  simp [encodeWord, decodeWord, decodeFamily8, fieldF_wordOfNibbles, fieldX_wordOfNibbles, fieldY_wordOfNibbles, key4_wordOfNibbles]

theorem xorVxVy (x : Fin 16) (y : Fin 16) : Statement (.xorVxVy x y) := by
  intro h
  simp [encodeWord, decodeWord, decodeFamily8, fieldF_wordOfNibbles, fieldX_wordOfNibbles, fieldY_wordOfNibbles, key4_wordOfNibbles]

theorem addVxVy (x : Fin 16) (y : Fin 16) : Statement (.addVxVy x y) := by
  intro h
  simp [encodeWord, decodeWord, decodeFamily8, fieldF_wordOfNibbles, fieldX_wordOfNibbles, fieldY_wordOfNibbles, key4_wordOfNibbles]

theorem subVxVy (x : Fin 16) (y : Fin 16) : Statement (.subVxVy x y) := by
  intro h
  simp [encodeWord, decodeWord, decodeFamily8, fieldF_wordOfNibbles, fieldX_wordOfNibbles, fieldY_wordOfNibbles, key4_wordOfNibbles]

theorem shrVx (x : Fin 16) : Statement (.shrVx x) := by
  intro h
  simp [encodeWord, decodeWord, decodeFamily8, fieldF_wordOfNibbles, fieldX_wordOfNibbles, key4_wordOfNibbles]

theorem subnVxVy (x : Fin 16) (y : Fin 16) : Statement (.subnVxVy x y) := by
  intro h
  simp [encodeWord, decodeWord, decodeFamily8, fieldF_wordOfNibbles, fieldX_wordOfNibbles, fieldY_wordOfNibbles, key4_wordOfNibbles]

theorem shlVx (x : Fin 16) : Statement (.shlVx x) := by
  intro h
  simp [encodeWord, decodeWord, decodeFamily8, fieldF_wordOfNibbles, fieldX_wordOfNibbles, key4_wordOfNibbles]

theorem sneVxVy (x : Fin 16) (y : Fin 16) : Statement (.sneVxVy x y) := by
  intro h
  simp [encodeWord, decodeWord, fieldF_wordOfNibbles, fieldX_wordOfNibbles, fieldY_wordOfNibbles]

theorem ldINnn (nnn : Addr) : Statement (.ldINnn nnn) := by
  intro h
  simp [encodeWord, decodeWord, fieldF_wordNNN, fieldNNN_wordNNN]

theorem jpV0Nnn (nnn : Addr) : Statement (.jpV0Nnn nnn) := by
  intro h
  simp [encodeWord, decodeWord, fieldF_wordNNN, fieldNNN_wordNNN]

theorem rndVxKk (x : Fin 16) (kk : Byte) : Statement (.rndVxKk x kk) := by
  intro h
  simp [encodeWord, decodeWord, fieldF_wordXKK, fieldX_wordXKK, fieldKK_wordXKK]

theorem drwVxVyN (x : Fin 16) (y : Fin 16) (n : Fin 16) : Statement (.drwVxVyN x y n) := by
  intro h
  simp [encodeWord, decodeWord, fieldF_wordOfNibbles, fieldX_wordOfNibbles, fieldY_wordOfNibbles, fieldN_wordOfNibbles]

theorem skpVx (x : Fin 16) : Statement (.skpVx x) := by
  intro h
  simp [encodeWord, decodeWord, decodeFamilyE, fieldF_wordXKK, fieldX_wordXKK, key4_wordXKK]

theorem sknpVx (x : Fin 16) : Statement (.sknpVx x) := by
  intro h
  simp [encodeWord, decodeWord, decodeFamilyE, fieldF_wordXKK, fieldX_wordXKK, key4_wordXKK]

theorem ldVxDt (x : Fin 16) : Statement (.ldVxDt x) := by
  intro h
  simp [encodeWord, decodeWord, decodeFamilyF, fieldF_wordXKK, fieldX_wordXKK, key8_wordXKK]

theorem ldVxK (x : Fin 16) : Statement (.ldVxK x) := by
  intro h
  simp [encodeWord, decodeWord, decodeFamilyF, fieldF_wordXKK, fieldX_wordXKK, key8_wordXKK]

theorem ldDtVx (x : Fin 16) : Statement (.ldDtVx x) := by
  intro h
  simp [encodeWord, decodeWord, decodeFamilyF, fieldF_wordXKK, fieldX_wordXKK, key8_wordXKK]

theorem ldStVx (x : Fin 16) : Statement (.ldStVx x) := by
  intro h
  simp [encodeWord, decodeWord, decodeFamilyF, fieldF_wordXKK, fieldX_wordXKK, key8_wordXKK]

theorem addIVx (x : Fin 16) : Statement (.addIVx x) := by
  intro h
  simp [encodeWord, decodeWord, decodeFamilyF, fieldF_wordXKK, fieldX_wordXKK, key8_wordXKK]

theorem ldFVx (x : Fin 16) : Statement (.ldFVx x) := by
  intro h
  simp [encodeWord, decodeWord, decodeFamilyF, fieldF_wordXKK, fieldX_wordXKK, key8_wordXKK]

theorem ldBVx (x : Fin 16) : Statement (.ldBVx x) := by
  intro h
  simp [encodeWord, decodeWord, decodeFamilyF, fieldF_wordXKK, fieldX_wordXKK, key8_wordXKK]

theorem ldMemVx (x : Fin 16) : Statement (.ldMemVx x) := by
  intro h
  simp [encodeWord, decodeWord, decodeFamilyF, fieldF_wordXKK, fieldX_wordXKK, key8_wordXKK]

theorem ldVxMem (x : Fin 16) : Statement (.ldVxMem x) := by
  intro h
  simp [encodeWord, decodeWord, decodeFamilyF, fieldF_wordXKK, fieldX_wordXKK, key8_wordXKK]

theorem nop (w : Word) : Statement (.nop w) := by
  intro h
  exact decodeWord_of_unmapped h

end RoundTrip

end Sys2Proof.Laws
end

