-- ==== Sys2Proof/Laws/Step.lean ====
section
/-! SUPPORT. What a step can do, said once: a halted core stays, a fetch past memory faults, else the decoded
instruction runs and the cycle ends. -/

namespace Sys2Proof.Machine

theorem step_of_halted {s : State} (h : s.fault.valid = true) : step s = .next s := by
  simp [step, State.halted, h]

theorem step_of_unfetchable {s : State} (h : s.fault.valid = false) (hp : 0x0FFE < s.pc.toNat) :
    step s = .next s.fetchFault := by
  have : s.fetchable = false := by
    simp only [State.fetchable, decide_eq_false_iff_not]
    omega
  simp [step, State.halted, h, this]

theorem step_of_fetch {s t : State} (h : s.fault.valid = false) (hp : s.pc.toNat ≤ 0x0FFE)
    (he : exec (decodeWord s.fetchWord) s.advance = .next t) : step s = .next t.endCycle := by
  have : s.fetchable = true := by simpa only [State.fetchable, decide_eq_true_eq] using hp
  simp [step, State.halted, h, this, he]

/-- Everything a step can do. -/
theorem step_cases {s t : State} (h : step s = .next t) :
    (s.fault.valid = true ∧ t = s) ∨
    (s.fault.valid = false ∧ 0x0FFE < s.pc.toNat ∧ t = s.fetchFault) ∨
    (s.fault.valid = false ∧ s.pc.toNat ≤ 0x0FFE ∧
      ∃ u, exec (decodeWord s.fetchWord) s.advance = .next u ∧ t = u.endCycle) := by
  cases hv : s.fault.valid with
  | true =>
    rw [step_of_halted hv] at h
    exact .inl ⟨rfl, (Host.Outcome.next.inj h).symm⟩
  | false =>
    by_cases hp : s.pc.toNat ≤ 0x0FFE
    · obtain ⟨u, hu⟩ := exec_answers (decodeWord s.fetchWord) s.advance
      rw [step_of_fetch hv hp hu] at h
      exact .inr (.inr ⟨rfl, hp, u, hu, (Host.Outcome.next.inj h).symm⟩)
    · rw [step_of_unfetchable hv (by omega)] at h
      exact .inr (.inl ⟨rfl, by omega, (Host.Outcome.next.inj h).symm⟩)

/-- A fetched cycle: either the handler raised, and only the fault register differs from the state before, or it did not
and the timers ticked. -/
theorem step_fetch_cases {s t : State} (hv : s.fault.valid = false) (hp : s.pc.toNat ≤ 0x0FFE)
    (h : step s = .next t) :
    (∃ c info, c ≠ FaultCause.none ∧ exec (decodeWord s.fetchWord) s.advance = .next (s.advance.raise c info) ∧
      t = { s with fault := { valid := true, cause := c, pc := s.pc, info := info } }) ∨
    (∃ u, exec (decodeWord s.fetchWord) s.advance = .next u ∧ u.fault = s.fault ∧ t = u.tick) := by
  obtain ⟨u, hu⟩ := exec_answers (decodeWord s.fetchWord) s.advance
  rw [step_of_fetch hv hp hu] at h
  obtain rfl := Host.Outcome.next.inj h
  rcases exec_raises_or_keeps hu with hf | ⟨c, info, hc, rfl⟩
  · refine .inr ⟨u, hu, hf, ?_⟩
    exact State.endCycle_of_not_valid (by rw [hf]; exact hv)
  · refine .inl ⟨c, info, hc, hu, ?_⟩
    rw [State.endCycle_of_valid rfl, State.raise_advance]

/-- The placed word is the next one fetched, when `pc` is in memory. -/
theorem State.fetchWord_placeWord (s : State) (w : Word) (hp : s.pc.toNat ≤ 0x0FFE) :
    (s.placeWord w).fetchWord = w := by
  simp only [State.fetchWord, State.placeWord, State.setMem_mem, State.setMem_pc]
  rw [Memory.read_writeBytes _ _ _ (by simp only [List.length_cons, List.length_nil]; omega),
    Memory.read_writeBytes _ _ _ (by simp only [List.length_cons, List.length_nil]; omega)]
  simp

end Sys2Proof.Machine
end

