-- ==== Sys2Proof/Laws/Run.lean ====
section
/-! SUPPORT. Runs of cycles and runs with host moves, unfolded one cycle or one move at a time. -/

namespace Sys2Proof.Machine

theorem run_zero (s : State) : core.run 0 s = .next s := rfl

theorem run_succ {s u : State} (k : Nat) (h : step s = .next u) : core.run (k + 1) s = core.run k u := by
  have h' : core.step s = .next u := h
  simp [Host.Core.run, h']

/-- Every state has a next state. -/
theorem step_answers (s : State) : ∃ t, step s = .next t := by
  cases hv : s.fault.valid with
  | true => exact ⟨_, step_of_halted hv⟩
  | false =>
    by_cases hp : s.pc.toNat ≤ 0x0FFE
    · obtain ⟨u, hu⟩ := exec_answers (decodeWord s.fetchWord) s.advance
      exact ⟨_, step_of_fetch hv hp hu⟩
    · exact ⟨_, step_of_unfetchable hv (by omega)⟩

/-! ### Runs with host moves -/

/-- Every host move answers. -/
theorem apply_answers (s : State) (m : HostMove) : ∃ t, s.apply m = .next t := by
  cases m with
  | step => exact step_answers s
  | _ => exact ⟨_, rfl⟩

@[simp] theorem State.drive_nil (s : State) : s.drive [] = .next s := rfl

theorem State.drive_cons {s t : State} {m : HostMove} (h : s.apply m = .next t) (ms : List HostMove) :
    s.drive (m :: ms) = t.drive ms := by
  rw [State.drive, h]

/-- Every run goes through. -/
theorem State.drive_answers (ms : List HostMove) : ∀ s : State, ∃ t, s.drive ms = .next t := by
  induction ms with
  | nil => exact fun s => ⟨s, rfl⟩
  | cons m ms ih =>
    intro s
    obtain ⟨u, hu⟩ := apply_answers s m
    rw [State.drive_cons hu]
    exact ih u

theorem State.drive_append (ms ns : List HostMove) :
    ∀ {s t : State}, s.drive ms = .next t → s.drive (ms ++ ns) = t.drive ns := by
  induction ms with
  | nil =>
    intro s t h
    rw [Host.Outcome.next.inj h, List.nil_append]
  | cons m ms ih =>
    intro s t h
    obtain ⟨u, hu⟩ := apply_answers s m
    rw [State.drive_cons hu] at h
    rw [List.cons_append, State.drive_cons hu]
    exact ih h

/-- A property that every move of a run keeps holds after the run. -/
theorem State.drive_induct {P : State → Prop} {ms : List HostMove}
    (hstep : ∀ m ∈ ms, ∀ s t, P s → s.apply m = .next t → P t) :
    ∀ {s t : State}, P s → s.drive ms = .next t → P t := by
  induction ms with
  | nil =>
    intro s t hs h
    exact Host.Outcome.next.inj h ▸ hs
  | cons m ms ih =>
    intro s t hs h
    obtain ⟨u, hu⟩ := apply_answers s m
    rw [State.drive_cons hu] at h
    exact ih (fun n hn => hstep n (List.mem_cons_of_mem m hn)) (hstep m List.mem_cons_self s u hs hu) h

@[simp] theorem stepRequests_nil : stepRequests [] = 0 := rfl

theorem stepRequests_cons (m : HostMove) (ms : List HostMove) :
    stepRequests (m :: ms) = stepRequests ms + if m = .step then 1 else 0 := by
  simp [stepRequests, List.count_cons]

/-- A run of `step` requests alone is a run of the core. -/
theorem State.drive_replicate_step (n : Nat) : ∀ s : State, s.drive (List.replicate n .step) = core.run n s := by
  induction n with
  | zero => exact fun s => rfl
  | succ n ih =>
    intro s
    obtain ⟨u, hu⟩ := step_answers s
    rw [List.replicate_succ, State.drive_cons (show s.apply .step = .next u from hu), run_succ n hu]
    exact ih u

/-- A run of the core is a run of that many cycles. -/
theorem runReaches_of_run {n : Nat} {s t : State} (h : core.run n s = .next t) : runReaches n s t :=
  ⟨List.replicate n .step, by simp [stepRequests], (State.drive_replicate_step n s).trans h⟩

theorem safeRun_nil (s : State) : safeRun [] s ↔ s.fault.valid = false := by
  simp [safeRun]

/-- A run is safe when it starts with no fault recorded, and the rest is safe after its first move. -/
theorem safeRun_cons {s t : State} {m : HostMove} (h : s.apply m = .next t) (ms : List HostMove) :
    safeRun (m :: ms) s ↔ s.fault.valid = false ∧ safeRun ms t := by
  constructor
  · refine fun hsafe => ⟨?_, fun k => ?_⟩
    · simpa using hsafe 0
    · simpa only [List.take_succ_cons, State.drive_cons h] using hsafe (k + 1)
  · rintro ⟨hv, hsafe⟩ k
    cases k with
    | zero => exact ⟨s, rfl, hv⟩
    | succ k => simpa only [List.take_succ_cons, State.drive_cons h] using hsafe k

end Sys2Proof.Machine
end

