-- ==== Sys2Proof/Tests/Slice0.lean ====
section
/-! SUPPORT. The model's own tests: the well-formedness smoke test, words written out from the encodings of spec/,
single cycles against 95_test_vectors.md (each test names its vector), and for every statement with hypotheses a
concrete state and operands that meet them. -/

namespace Sys2Proof.Tests

open Sys2Proof.Machine Sys2Proof.Statements

/-! ### Small states -/

/-- A state with some registers set. -/
def regs (l : List (RegIx × Byte)) (s : State) : State := l.foldl (fun s p => s.setReg p.1 p.2) s

/-- A state with bytes placed. -/
def bytesAt (a : Nat) (bs : List Byte) (s : State) : State := s.setMem (s.mem.writeBytes a bs)

/-- The next state; the state itself where there is none. -/
def after (s : State) : State :=
  match step s with
  | .next t => t
  | .fault _ => s
  | .refused _ => s

/-- A state with a word placed at its `pc`. -/
def at' (w : Nat) (s : State) : State := s.withFetchWord 16 w

/-! ### Well-formed instructions: the only check is that a no-op's word is unmapped (30_encoding.md R99) -/

theorem test_wellFormed_refuses_mapped_nop : (Instr.nop 0x00E0).wellFormed = false := by decide
theorem test_wellFormed_refuses_alias_nop : (Instr.nop 0x1234).wellFormed = false := by decide
theorem test_wellFormed_accepts_unmapped_nop : (Instr.nop 0x8128).wellFormed = true := by decide
theorem test_wellFormed_accepts_draw : (Instr.drwVxVyN 15 0 15).wellFormed = true := by decide

/-! ### Words written out from 30_encoding.md R93 and R101 -/

theorem test_decode_family_0 : decodeWord 0b0000000011100000 = .cls ∧ decodeWord 0b0000000011101110 = .ret ∧
    decodeWord 0 = .cls ∧ decodeWord 0b0000000011111110 = .ret ∧ decodeWord 0x00E1 = .nop 0x00E1 := by decide

theorem test_decode_addresses : decodeWord 0b0001001000000100 = .jpNnn 0x204 ∧
    decodeWord 0b0010001000010000 = .callNnn 0x210 ∧ decodeWord 0b1010001100000000 = .ldINnn 0x300 ∧
    decodeWord 0b1011001100000000 = .jpV0Nnn 0x300 := by decide

theorem test_decode_immediates : decodeWord 0b0011000100000000 = .seVxKk 1 0 ∧
    decodeWord 0b0100000100000101 = .sneVxKk 1 5 ∧ decodeWord 0b0110000000000101 = .ldVxKk 0 5 ∧
    decodeWord 0b0111000000001010 = .addVxKk 0 10 ∧ decodeWord 0b1100000100001111 = .rndVxKk 1 15 := by decide

theorem test_decode_register_skips : decodeWord 0b0101000100100000 = .seVxVy 1 2 ∧
    decodeWord 0b0101000100100111 = .seVxVy 1 2 ∧ decodeWord 0b1001000100100000 = .sneVxVy 1 2 := by decide

theorem test_decode_family_8 : decodeWord 0b1000000100100000 = .ldVxVy 1 2 ∧
    decodeWord 0b1000000100100001 = .orVxVy 1 2 ∧ decodeWord 0b1000000100100010 = .andVxVy 1 2 ∧
    decodeWord 0b1000000100100011 = .xorVxVy 1 2 ∧ decodeWord 0b1000000100100100 = .addVxVy 1 2 ∧
    decodeWord 0b1000000100100101 = .subVxVy 1 2 ∧ decodeWord 0b1000000100000110 = .shrVx 1 ∧
    decodeWord 0b1000000100100111 = .subnVxVy 1 2 ∧ decodeWord 0b1000000100001110 = .shlVx 1 ∧
    decodeWord 0b1000000100101000 = .nop 0x8128 := by decide

theorem test_decode_draw_and_keys : decodeWord 0b1101000100100101 = .drwVxVyN 1 2 5 ∧
    decodeWord 0b1110000110011110 = .skpVx 1 ∧ decodeWord 0b1110000110100001 = .sknpVx 1 ∧
    decodeWord 0b1110000100001110 = .skpVx 1 ∧ decodeWord 0b1110000110011111 = .nop 0xE19F := by decide

theorem test_decode_family_F : decodeWord 0b1111001000000111 = .ldVxDt 2 ∧ decodeWord 0b1111000100001010 = .ldVxK 1 ∧
    decodeWord 0b1111000000010101 = .ldDtVx 0 ∧ decodeWord 0b1111000000011000 = .ldStVx 0 ∧
    decodeWord 0b1111001000011110 = .addIVx 2 ∧ decodeWord 0b1111000000101001 = .ldFVx 0 ∧
    decodeWord 0b1111000000110011 = .ldBVx 0 ∧ decodeWord 0b1111001001010101 = .ldMemVx 2 ∧
    decodeWord 0b1111001101100101 = .ldVxMem 3 ∧ decodeWord 0xF000 = .nop 0xF000 := by decide

/-- The bytes are taken high byte first (S13). -/
theorem test_decode_high_byte_first : decode [0x60, 0x05] = .ok (.ldVxKk 0 5, []) := by decide

/-- A table row's word is the decoder's. -/
theorem test_decodeTableWord : decodeTableWord 16 0x8F14 = some (.addVxVy 15 1) := by decide

/-! ### The cycle -/

/-- V-NOP-1. -/
theorem test_nop_advances_and_ticks : after (at' 0x8128 (regs [(1, 1), (2, 2)] { State.reset with dt := 3 })) =
    { at' 0x8128 (regs [(1, 1), (2, 2)] State.reset) with pc := 0x202, dt := 2 } := by decide +kernel

/-- V-CYC-2. -/
theorem test_fetch_fault_at_last_byte : after { State.reset with pc := 0xFFF, dt := 7 } =
    { State.reset with pc := 0xFFF, dt := 7, fault := { valid := true, cause := .fetchOutOfRange, pc := 0xFFF,
                                                        info := 0xFFF } } := by decide +kernel

/-- V-CYC-1. -/
theorem test_fetch_of_last_word : (after (at' 0x6001 { State.reset with pc := 0xFFE })).pc = 0x1000 := by
  decide

/-! ### Control flow -/

/-- V-CF-3. -/
theorem test_ret_empty_faults : (after (at' 0x00EE State.reset)).fault =
    { valid := true, cause := .stackUnderflow, pc := 0x200, info := 0 } := by decide

/-- R142's example, 0x2210 at 0x204. -/
theorem test_call_pushes_next_address : let t := after (at' 0x2210 { State.reset with pc := 0x204 });
    t.pc = 0x210 ∧ t.sp = 1 ∧ t.stack[0] = 0x206 := by decide

/-- V-CF-10's last cycle. -/
theorem test_call_seventeenth_faults : (after (at' 0x2222 { State.reset with pc := 0x220, sp := 16 })).fault =
    { valid := true, cause := .stackOverflow, pc := 0x220, info := 16 } := by decide

/-- V-CF-11. -/
theorem test_ret_alias :
    let t := after (at' 0x00FE { State.reset with sp := 1, stack := State.reset.stack.set 0 0x300 });
    t.pc = 0x300 ∧ t.sp = 0 := by decide

/-- V-CF-1. -/
theorem test_jp : (after (at' 0x1204 State.reset)).pc = 0x204 := by decide

/-- V-CF-5. -/
theorem test_jpV0_not_reduced : (after (at' 0xBFFF (regs [(0, 0xFF), (15, 1)] State.reset))).pc = 0x10FE := by
  decide

/-- V-CF-6 and V-CF-7. -/
theorem test_skips_immediate : (after (at' 0x3100 State.reset)).pc = 0x204 ∧
    (after (at' 0x3104 State.reset)).pc = 0x202 ∧ (after (at' 0x4105 (regs [(1, 4)] State.reset))).pc = 0x204 ∧
    (after (at' 0x4105 (regs [(1, 5)] State.reset))).pc = 0x202 := by decide

/-- V-CF-8 and V-CF-9. -/
theorem test_skips_register : (after (at' 0x5127 (regs [(1, 7), (2, 7)] State.reset))).pc = 0x204 ∧
    (after (at' 0x9120 (regs [(1, 7), (2, 8)] State.reset))).pc = 0x204 ∧
    (after (at' 0x9120 (regs [(1, 7), (2, 7)] State.reset))).pc = 0x202 := by decide

/-! ### Loads and ALU -/

/-- V-ALU-1, V-ALU-3. -/
theorem test_loads : (after (at' 0x6AFF State.reset)).reg 10 = 0xFF ∧
    (after (at' 0x8120 (regs [(2, 0x33)] State.reset))).reg 1 = 0x33 := by decide

/-- V-ALU-2. -/
theorem test_add_immediate_sets_no_flag : let t := after (at' 0x7101 (regs [(1, 0xFF)] State.reset));
    t.reg 1 = 0 ∧ t.reg 15 = 0 := by decide

/-- V-ALU-4, 5, 6. -/
theorem test_bitwise : (after (at' 0x8121 (regs [(1, 0xF0), (2, 0x3C)] State.reset))).reg 1 = 0xFC ∧
    (after (at' 0x8122 (regs [(1, 0xF0), (2, 0x3C)] State.reset))).reg 1 = 0x30 ∧
    (after (at' 0x8123 (regs [(1, 0xF0), (2, 0x3C)] State.reset))).reg 1 = 0xCC := by decide

/-- V-ALU-7. -/
theorem test_add_carry : let t := after (at' 0x8124 (regs [(1, 0xC8), (2, 0x64)] State.reset));
    t.reg 1 = 0x2C ∧ t.reg 15 = 1 := by decide

/-- V-ALU-16. -/
theorem test_add_into_flag : (after (at' 0x8F14 (regs [(15, 0x80), (1, 0x90)] State.reset))).reg 15 = 0x10 := by
  decide

/-- V-ALU-10, V-ALU-12. -/
theorem test_sub : let e := after (at' 0x8125 (regs [(1, 7), (2, 7), (15, 1)] State.reset));
    let t := after (at' 0x8125 (regs [(1, 5), (2, 0x0A)] State.reset));
    e.reg 1 = 0 ∧ e.reg 15 = 0 ∧ t.reg 1 = 0xFB ∧ t.reg 15 = 0 := by decide

/-- V-ALU-15. -/
theorem test_subn : let t := after (at' 0x8127 (regs [(1, 5), (2, 0x0A)] State.reset));
    t.reg 1 = 5 ∧ t.reg 15 = 1 := by decide

/-- V-ALU-14. -/
theorem test_shr_ignores_y : let t := after (at' 0x8126 (regs [(1, 4), (2, 0xFF), (15, 1)] State.reset));
    t.reg 1 = 2 ∧ t.reg 2 = 0xFF ∧ t.reg 15 = 0 := by decide

/-- V-ALU-18. -/
theorem test_shl : let t := after (at' 0x810E (regs [(1, 0x81)] State.reset));
    t.reg 1 = 2 ∧ t.reg 15 = 1 := by decide

/-- V-ALU-23: whatever the draw. -/
theorem test_rnd_mask_zero : (after (at' 0xC100 State.reset)).reg 1 = 0 := by
  show Config.draw 0 &&& 0 = 0
  simp

/-! ### Index and memory -/

/-- V-IDX-1, 3, 6. -/
theorem test_index : (after (at' 0xA300 State.reset)).index = 0x300 ∧
    (after (at' 0xF21E (regs [(2, 1)] { State.reset with index := 0xFFFF }))).index = 0 ∧
    (after (at' 0xF029 (regs [(0, 0xFF)] State.reset))).index = 0x54B := by decide

/-- V-MEM-2. -/
theorem test_bcd : (after (at' 0xF033 (regs [(0, 0xFF)] { State.reset with index := 0xFFD }))).mem.readBytes 0xFFD 3 =
    [2, 5, 5] := by decide

/-- V-MEM-3. -/
theorem test_bcd_past_memory : let t := after (at' 0xF033 (regs [(0, 0xFF)] { State.reset with index := 0xFFE }));
    t.fault = { valid := true, cause := .memWriteOutOfRange, pc := 0x200, info := 0x1000 } ∧
    t.mem.read 0xFFE = 0 ∧ t.pc = 0x200 := by decide

/-- V-MEM-4. -/
theorem test_block_store : (after (at' 0xF255
    (bytesAt 0x302 [0x77] (regs [(0, 1), (1, 2), (2, 3)] { State.reset with index := 0x300 })))).mem.readBytes 0x300 3 =
    [1, 2, 0x77] := by decide

/-- V-MEM-6, V-MEM-7. -/
theorem test_block_store_none_and_past : let s := regs [(0, 1)] { State.reset with index := 0xFFFF };
    (after (at' 0xF055 s)).fault.valid = false ∧ (after (at' 0xF155 s)).fault.info = 0xFFFF := by decide

/-- V-MEM-8. -/
theorem test_block_load : let t := after (at' 0xF365
      (bytesAt 0x300 [2, 3, 4, 9] (regs [(3, 0x55)] { State.reset with index := 0x300 })));
    t.reg 0 = 2 ∧ t.reg 1 = 3 ∧ t.reg 2 = 4 ∧ t.reg 3 = 0x55 := by decide

/-- V-MEM-9. -/
theorem test_block_load_past_memory : (after (at' 0xF365 { State.reset with index := 0xFFE })).fault =
    { valid := true, cause := .memReadOutOfRange, pc := 0x200, info := 0x1000 } := by decide

/-! ### Display -/

/-- The state of the display vectors: a sprite at 0x300, its coordinates in registers 0 and 1. -/
def sprite (bs : List Byte) (x y : Byte) : State :=
  bytesAt 0x300 bs (regs [(0, x), (1, y)] { State.reset with index := 0x300 })

/-- V-CLS-1. -/
theorem test_cls : let t := after (at' 0x00E0 (regs [(15, 1)]
      { State.reset with fb := BitVec.twoPow 2048 5 ||| BitVec.twoPow 2048 2047 }));
    t.fb = 0 ∧ t.reg 15 = 1 := by decide +kernel

/-- V-DRW-5: cells 60 to 67. -/
theorem test_draw_across_the_right_edge : let t := after (at' 0xD011 (sprite [0xFF] 60 0));
    t.fb = BitVec.ofNat 2048 (0xFF <<< 60) ∧ t.reg 15 = 0 := by decide +kernel

/-- V-DRW-3. -/
theorem test_draw_past_the_last_cell : let t := after (at' 0xD011 (sprite [0xFF] 255 255));
    t.fault = { valid := true, cause := .framebufferOutOfRange, pc := 0x200, info := 2048 } ∧ t.fb = 0 := by
  decide +kernel

/-! ### Keypad and timers -/

/-- V-KEY-1, V-KEY-6. -/
theorem test_skp : (after (at' 0xE19E (regs [(1, 7)] { State.reset with keys := 0x80 }))).pc = 0x204 ∧
    (after (at' 0xE19E (regs [(1, 0x10)] State.reset))).fault =
      { valid := true, cause := .keyIndexOutOfRange, pc := 0x200, info := 0x10 } := by decide

/-- V-KEY-3, V-KEY-7. -/
theorem test_sknp : (after (at' 0xE1A1 (regs [(1, 7)] State.reset))).pc = 0x204 ∧
    (after (at' 0xE1A1 (regs [(1, 0x17)] { State.reset with keys := 0x80 }))).fault.info = 0x17 := by decide

/-- V-KEY-8: a waiting cycle, then the lowest key. -/
theorem test_wait_for_key : let t := after (at' 0xF10A { State.reset with dt := 10 });
    let u := after { t with keys := 0x280 };
    t.pc = 0x200 ∧ t.dt = 9 ∧ u.reg 1 = 7 ∧ u.pc = 0x202 := by decide

/-- V-TMR-1, V-TMR-4. -/
theorem test_set_timers : (after (at' 0xF015 (regs [(0, 5)] State.reset))).dt = 4 ∧
    (after (at' 0xF018 (regs [(0, 2)] State.reset))).st = 1 ∧
    (after (at' 0x1200 { State.reset with dt := 255, st := 1 })).dt = 254 := by decide

/-- R233's example. -/
theorem test_read_delay_timer : let t := after (at' 0xF207 { State.reset with dt := 3 });
    t.reg 2 = 3 ∧ t.dt = 2 := by decide

/-! ### Witnesses: states and operands that meet the hypotheses of the statements, at the ends of their ranges -/

theorem witness_DecodeOfEncode : (Instr.nop 0xFFFF).wellFormed = true ∧ (Instr.ldVxMem 15).wellFormed = true := by
  decide

/-- Every clause: halted; a fetch fault at 0xFFF; a fetch at 0xFFE whose handler does not raise; one that does. -/
theorem witness_StepRunsTheDecodedInstruction :
    (after State.reset.fetchFault).fault.valid = true ∧
    (0x0FFE < (0xFFF : Word).toNat ∧ State.reset.fault.valid = false) ∧
    (let s := at' 0x6001 { State.reset with pc := 0xFFE };
      s.pc.toNat ≤ 0x0FFE ∧ decode [s.mem.read 0xFFE, s.mem.read 0xFFF] = .ok (.ldVxKk 0 1, []) ∧
      (after s).fault.valid = false) ∧
    (let s := at' 0x00EE State.reset;
      decode [s.mem.read 0x200, s.mem.read 0x201] = .ok (.ret, []) ∧ (after s).fault.valid = true) := by
  decide

/-- The four kinds of cycle the tick statement tells apart. -/
theorem witness_TimersTickInEveryCycle :
    (∃ t, step (at' 0xF015 State.reset) = .next t ∧ t.fault.valid = false) ∧
    (∃ t, step (at' 0xF018 State.reset) = .next t ∧ t.fault.valid = false) ∧
    (∃ t, step (at' 0xF007 State.reset) = .next t ∧ t.fault.valid = false) ∧
    decodeWord (at' 0xF015 State.reset).fetchWord = .ldDtVx 0 ∧
    decodeWord (at' 0xF018 State.reset).fetchWord = .ldStVx 0 ∧
    decodeWord (at' 0xF007 State.reset).fetchWord = .ldVxDt 0 :=
  ⟨⟨_, rfl, rfl⟩, ⟨_, rfl, rfl⟩, ⟨_, rfl, rfl⟩, by decide⟩

theorem witness_UnmappedWordsChangeNothing : (∀ r ∈ opcodeTable, (0x8128 : Word) &&& r.mask ≠ r.value) ∧
    (let s := at' 0x8128 { State.reset with pc := 0xFFE };
      s.fault.valid = false ∧ s.pc.toNat ≤ 0x0FFE ∧ s.fetchWord = 0x8128) := by decide

/-- A cycle that fetches and goes on, and one that fetches and faults. -/
theorem witness_EveryInstructionLeavesPcWhereTheRuleSays :
    fetches (at' 0x3100 State.reset) (.seVxKk 1 0) ∧ (after (at' 0x3100 State.reset)).fault.valid = false ∧
    fetches (at' 0x00EE State.reset) .ret ∧ (after (at' 0x00EE State.reset)).fault.valid = true := by
  unfold fetches
  decide

/-- P6, cycle 4: block-store at `pc + 2`; and BCD-store whose last digit is the last byte of memory. -/
theorem witness_StoredCodeIsFetchedNext :
    (let s := at' 0xF255 (regs [(0, 0x60), (1, 0x2A)] { State.reset with pc := 0x206, index := 0x208 });
      s.pc.toNat + 2 ≤ 0x0FFE ∧ fetches s (.ldMemVx 2) ∧ (∃ t, step s = .next t ∧ t.fault.valid = false) ∧
      s.index.toNat + 1 = s.pc.toNat + 2 + 1 ∧ (1 : RegIx) < (2 : Fin 16) ∧ (1 : RegIx).val = 1 ∧
      (after s).fetchWord = 0x602A) ∧
    (let s := at' 0xF033 (regs [(0, 0xFF)] { State.reset with pc := 0xFFC, index := 0xFFD });
      s.pc.toNat + 2 ≤ 0x0FFE ∧ fetches s (.ldBVx 0) ∧ (∃ t, step s = .next t ∧ t.fault.valid = false) ∧
      s.index.toNat + 2 = s.pc.toNat + 2 + 1 ∧ fetchedByte (after s) 1 = 5) := by
  unfold fetches
  exact ⟨⟨by decide, by decide, ⟨_, rfl, rfl⟩, by decide⟩, ⟨by decide, by decide, ⟨_, rfl, rfl⟩, by decide⟩⟩

theorem witness_Call_and_Return : ({ State.reset with sp := 15 } : State).sp.val < 16 ∧ State.reset.sp.val < 16 ∧
    0 < ({ State.reset with sp := 1 } : State).sp.val ∧ 0 < ({ State.reset with sp := 16 } : State).sp.val := by decide

theorem witness_NestedCallsAndReturnsRestore : List.replicate 16 (0x202 : Addr) ≠ [] ∧
    State.reset.sp.val + (List.replicate 16 (0x202 : Addr)).length ≤ 16 ∧
    [(0x300 : Addr)] ≠ [] ∧ ({ State.reset with sp := 15 } : State).sp.val + [(0x300 : Addr)].length ≤ 16 := by decide

/-- The operands of V-ALU-12 as integers. -/
theorem witness_AddAndSubtract_and_Shifts : let s := regs [(1, 5), (2, 0x0A)] State.reset;
    (5 : Nat) = (s.reg 1).toNat ∧ 10 = (s.reg 2).toNat := by decide

theorem witness_BcdStore : ({ State.reset with index := 0xFFD } : State).effAddr 2 ≤ 0xFFF := by decide

/-- The last block that fits, and the empty block with `I` past memory. -/
theorem witness_BlockStore_and_BlockLoad : bytesInMemory { State.reset with index := 0xFF1 } (15 : Fin 16).val ∧
    bytesInMemory { State.reset with index := 0xFFFF } (0 : Fin 16).val := by
  unfold bytesInMemory
  decide

/-- V-DRW-4: one set bit, on the last cell. -/
theorem witness_DrawTogglesTheCellsOfSetBits : let s := sprite [0x80] 255 255;
    bytesInMemory s (1 : Fin 16).val ∧ spriteCell s 0 1 1 2047 ∧ ∀ k, spriteCell s 0 1 1 k → k ≤ 2047 := by
  refine ⟨by unfold bytesInMemory; decide, ⟨0, 0, by unfold spriteBit; decide⟩, ?_⟩
  rintro k ⟨r, c, hr, hc, hb, rfl⟩
  obtain rfl : r = 0 := by omega
  have hall : ∀ c < 8, spriteBit (sprite [0x80] 255 255) 0 c → cellOf (sprite [0x80] 255 255) 0 1 0 c ≤ 2047 := by
    unfold spriteBit
    decide
  exact hall c hc hb

/-- V-DRW-3: bit 6 is the first past the last cell; bit 7 is on it. -/
theorem witness_DrawPastTheLastCellFaults : let s := at' 0xD011 (sprite [0xFF] 255 255);
    fetches s (.drwVxVyN 0 1 1) ∧ bytesInMemory s (1 : Fin 16).val ∧ spriteBit s 0 1 ∧ 2047 < cellOf s 0 1 0 1 ∧
    ∀ p q, p < 0 ∧ q < 8 ∨ p = 0 ∧ q < 1 → spriteBit s p q → cellOf s 0 1 p q ≤ 2047 := by
  refine ⟨by unfold fetches; decide, by unfold bytesInMemory; decide, by unfold spriteBit; decide +kernel,
    by decide, ?_⟩
  rintro p q (⟨h, -⟩ | ⟨rfl, hq⟩) _
  · omega
  · obtain rfl : q = 0 := by omega
    decide

/-- V-DRW-1: the second draw starts in the state the first left. -/
theorem witness_DrawingTwiceRestoresTheFramebuffer : ∃ t, exec (.drwVxVyN 0 1 1) (sprite [0xFF] 0 0) = .next t ∧
    (sprite [0xFF] 0 0).fault.valid = false ∧ t.fault.valid = false ∧ t.mem = (sprite [0xFF] 0 0).mem ∧
    t.index = (sprite [0xFF] 0 0).index ∧ t.reg 0 = (sprite [0xFF] 0 0).reg 0 ∧
    t.reg 1 = (sprite [0xFF] 0 0).reg 1 := ⟨_, rfl, by decide⟩

theorem witness_KeySkipsTestTheirKey : ((regs [(1, 15)] State.reset).reg 1).toNat ≤ 15 ∧
    (State.reset.reg 1).toNat ≤ 15 := by decide

/-- The last key alone; no key, waiting. -/
theorem witness_WaitForKeyTakesTheLeastKeyOrWaits :
    (let s : State := { State.reset with keys := 0x8000 };
      s.keys.getLsbD (15 : Fin 16).val = true ∧ ∀ j, j < (15 : Fin 16).val → s.keys.getLsbD j = false) ∧
    (∀ k : Fin 16, State.reset.keys.getLsbD k.val = false) ∧ fetches (at' 0xF10A State.reset) (.ldVxK 1) := by
  unfold fetches
  decide

theorem witness_TimerMovesCopyAndTheTickFollows : fetches (at' 0xF007 State.reset) (.ldVxDt 0) ∧
    fetches (at' 0xF015 State.reset) (.ldDtVx 0) ∧ fetches (at' 0xF018 State.reset) (.ldStVx 0) := by
  unfold fetches
  decide

/-- Two cycles of a jump to itself (V-TMR-4's word). -/
theorem witness_DelayTimerCountsCycles : let s := at' 0x1200 { State.reset with dt := 9 };
    ∃ t : State, core.run 2 s = .next t ∧ t.fault.valid = false ∧ t.dt = 7 ∧
      ∀ j u, j < 2 → core.run j s = .next u → ∀ x, decodeWord (State.fetchWord u) ≠ .ldDtVx x := by
  refine ⟨after (after (at' 0x1200 { State.reset with dt := 9 })), rfl, by decide, by decide +kernel, ?_⟩
  intro j u hj hu x
  have h : j = 0 ∨ j = 1 := by omega
  rcases h with rfl | rfl
  · obtain rfl : at' 0x1200 { State.reset with dt := 9 } = u := Host.Outcome.next.inj hu
    revert x
    decide
  · obtain rfl : after (at' 0x1200 { State.reset with dt := 9 }) = u := Host.Outcome.next.inj hu
    revert x
    decide

/-- Each clause of FaultsAreRecordedAndTheCycleUndone, at the first value that faults. -/
theorem witness_FaultsAreRecordedAndTheCycleUndone :
    (0x0FFE < ({ State.reset with pc := 0xFFF } : State).pc.toNat) ∧
    fetches (at' 0x2222 { State.reset with sp := 16 }) (.callNnn 0x222) ∧
    (fetches (at' 0x00EE State.reset) .ret ∧ State.reset.sp = 0) ∧
    (let s := at' 0xD012 { State.reset with index := 0xFFF };
      fetches s (.drwVxVyN 0 1 2) ∧ ¬bytesInMemory s (2 : Fin 16).val) ∧
    (let s := at' 0xF265 { State.reset with index := 0xFFF }; fetches s (.ldVxMem 2) ∧ ¬bytesInMemory s (2 : Fin 16).val) ∧
    (let s := at' 0xF033 { State.reset with index := 0xFFE }; fetches s (.ldBVx 0) ∧ ¬bytesInMemory s 3) ∧
    (let s := at' 0xF155 { State.reset with index := 0x1000 };
      fetches s (.ldMemVx 1) ∧ ¬bytesInMemory s (1 : Fin 16).val) ∧
    (let s := at' 0xE19E (regs [(1, 16)] State.reset); fetches s (.skpVx 1) ∧ 15 < (s.reg 1).toNat) ∧
    (let s := at' 0xE1A1 (regs [(1, 16)] State.reset); fetches s (.sknpVx 1) ∧ 15 < (s.reg 1).toNat) := by
  unfold fetches bytesInMemory
  decide

/-- A cycle that faults, from a state with no fault. -/
theorem witness_NoOtherConditionFaults : State.reset.fault.valid = false ∧
    ∃ t, step (at' 0x00EE State.reset) = .next t ∧ t.fault.valid = true := ⟨rfl, _, rfl, rfl⟩

theorem witness_HaltedCoreStaysHalted : State.reset.fetchFault.fault.valid = true := rfl

/-- A state that is not reset's: memory written, a call made, one key down. -/
theorem witness_EveryStepKeepsTheInvariant :
    let s := at' 0x1204 (bytesAt 0x300 [1, 2]
      { State.reset with sp := 1, stack := State.reset.stack.set 0 0x202, keys := 1 });
    s.Inv ∧ ∃ t, step s = .next t := by
  refine ⟨⟨by decide, by decide +kernel, by decide +kernel, rfl⟩, _, rfl⟩

theorem witness_EveryHostMoveKeepsTheInvariant : State.reset.Inv ∧ ∃ t, State.reset.apply (.load 0x200 0x12) = .next t :=
  ⟨⟨by decide, by decide, by decide, rfl⟩, _, rfl⟩

/-- An image of the greatest length, its last byte, the byte before it and none after it. -/
theorem witness_LoaderPlacesTheImage : (List.replicate 3584 (0 : Byte)).length ≤ 3584 ∧
    3583 < (List.replicate 3584 (0 : Byte)).length := by
  rw [List.length_replicate]
  decide

theorem witness_HandlersWriteOnlyWhatTheirRuleLists : State.reset.fault.valid = false ∧
    (∃ t, exec (.addVxVy 1 2) (regs [(1, 0xFF), (2, 1)] State.reset) = .next t ∧ t.reg 15 ≠ 0) ∧
    (∃ t, exec (.seVxKk 1 0) State.reset = .next t ∧ t.fault.valid = false ∧ t.pc ≠ State.reset.pc) ∧
    ∃ t, exec .ret State.reset = .next t ∧ t.fault.valid = true :=
  ⟨rfl, ⟨_, rfl, by decide⟩, ⟨_, rfl, rfl, by decide⟩, _, rfl, rfl⟩

/-- One slot in use, a stack that differs in the others, and a return that pops the one in use. -/
theorem witness_UnusedStackSlotsAreNeverRead :
    let s := at' 0x00EE { State.reset with sp := 1, stack := State.reset.stack.set 0 0x300 };
    (∀ k : Fin 16, k.val < s.sp.val → (s.stack.set 1 0x777)[k.val] = s.stack[k.val]) ∧ ∃ t, step s = .next t :=
  ⟨by decide, _, rfl⟩

theorem witness_SoundTimer_and_Keys : (∃ t, step (at' 0xF018 State.reset) = .next t) ∧
    ∀ x, decodeWord (at' 0xF018 State.reset).fetchWord ≠ .skpVx x ∧
      decodeWord (at' 0xF018 State.reset).fetchWord ≠ .sknpVx x ∧
      decodeWord (at' 0xF018 State.reset).fetchWord ≠ .ldVxK x := ⟨⟨_, rfl⟩, by decide⟩

/-- A jump to itself at the last place a word can be fetched from. -/
theorem witness_ParkedCoreOnlyCountsDown : let s := at' 0x1FFE { State.reset with pc := 0xFFE };
    s.fault.valid = false ∧ s.parked := by decide

theorem witness_WaitingCoreOnlyCountsDown : let s := at' 0xF10A State.reset;
    s.fault.valid = false ∧ s.waiting := ⟨rfl, by decide, ⟨1, by decide +kernel⟩, rfl⟩

/-! ### Runs with host moves -/

/-- V-KEY-8: one cycle with no key, two keys set, one cycle. -/
theorem test_run_with_a_key_move :
    stepRequests [.step, .keys 0x280, .step] = 2 ∧
    ∃ t, (at' 0xF10A { State.reset with dt := 10 }).drive [.step, .keys 0x280, .step] = .next t ∧ t.reg 1 = 7 ∧
      t.pc = 0x202 ∧ t.dt = 8 := ⟨by decide, _, rfl, by decide⟩

theorem witness_RunsGoThroughAndKeepTheInvariant : State.reset.Inv := ⟨by decide, by decide, by decide, rfl⟩

theorem witness_StepRequestsAloneRunTheCore : ∃ t, State.reset.drive [.keys 1, .step] = .next t := ⟨_, rfl⟩

/-- A halted core, a byte loaded, a key set, a cycle. -/
theorem witness_FaultedCoreUnderHostMoves : State.reset.fetchFault.fault.valid = true ∧
    HostMove.reset ∉ [HostMove.load 0x200 1, .keys 1, .step] := by decide

/-- The parked core of ParkedCoreOnlyCountsDown, with key and read moves between its cycles. -/
theorem witness_ParkedCoreUnderHostMoves : let s := at' 0x1FFE { State.reset with pc := 0xFFE };
    s.fault.valid = false ∧ s.parked ∧ noResetNoLoad [.step, .keys 1, .readCell 0, .step, .readFault] := by
  refine ⟨rfl, by decide, by decide, ?_⟩
  intro a v h
  simp at h

/-- A waiting core, cycles and an empty key move; then the last key alone, and the first two. -/
theorem witness_WaitingCoreUnderHostMoves : let s := at' 0xF10A State.reset;
    s.fault.valid = false ∧ s.waiting ∧ decodeWord s.fetchWord = .ldVxK 1 ∧
    noResetNoLoad [.step, .keys 0, .step] ∧ (∀ k, HostMove.keys k ∈ [.step, .keys 0, .step] → k = 0) ∧
    (0x8000 : BitVec 16).getLsbD (15 : Fin 16).val = true ∧
    (∀ i, i < (15 : Fin 16).val → (0x8000 : BitVec 16).getLsbD i = false) ∧
    (3 : BitVec 16).getLsbD (0 : Fin 16).val = true := by
  refine ⟨rfl, ⟨by decide, ⟨1, by decide⟩, rfl⟩, by decide, ⟨by decide, ?_⟩, ?_, by decide⟩
  · intro a v h
    simp at h
  · intro k h
    simpa using h

end Sys2Proof.Tests
end

section
/-! PROOFS. The cycle driver (40_cycle_driver.md): the tick of R125 and the no-op of R126. -/

namespace Sys2Proof.Machine

/-! ### The timers a handler leaves, R125 -/

/-- The delay timer as the handler of an instruction leaves it: only set-delay-timer writes it (10_state.md R30). -/
def State.handlerDt (s : State) : Instr → Byte
  | .ldDtVx x => s.reg x
  | _ => s.dt

/-- The sound timer as the handler of an instruction leaves it: only set-sound-timer writes it (10_state.md R30). -/
def State.handlerSt (s : State) : Instr → Byte
  | .ldStVx x => s.reg x
  | _ => s.st

@[simp] theorem State.handlerDt_ldDtVx (s : State) (x : RegIx) : s.handlerDt (.ldDtVx x) = s.reg x := rfl

@[simp] theorem State.handlerSt_ldStVx (s : State) (x : RegIx) : s.handlerSt (.ldStVx x) = s.reg x := rfl

theorem State.handlerDt_of_ne (s : State) {i : Instr} (h : ∀ x, i ≠ .ldDtVx x) : s.handlerDt i = s.dt := by
  unfold State.handlerDt
  split
  · exact absurd rfl (h _)
  · rfl

theorem State.handlerSt_of_ne (s : State) {i : Instr} (h : ∀ x, i ≠ .ldStVx x) : s.handlerSt i = s.st := by
  unfold State.handlerSt
  split
  · exact absurd rfl (h _)
  · rfl

/-- Apart from the two timer moves no handler touches a timer, whether it raises or not. -/
theorem exec_timers {i : Instr} {s t : State} (h : exec i s = .next t) :
    t.dt = s.handlerDt i ∧ t.st = s.handlerSt i := by
  cases i with
  | ret => rcases execRet_cases h with ⟨-, rfl⟩ | ⟨-, rfl⟩ <;> exact ⟨rfl, rfl⟩
  | callNnn nnn => rcases execCallNnn_cases h with ⟨-, rfl⟩ | ⟨-, rfl⟩ <;> exact ⟨rfl, rfl⟩
  | drwVxVyN x y n =>
    rcases execDrwVxVyN_cases h with ⟨-, rfl⟩ | ⟨-, k, -, -, rfl⟩ | ⟨-, -, f, rfl, -⟩ <;> exact ⟨rfl, rfl⟩
  | ldVxK x => rcases execLdVxK_cases h with ⟨k, -, -, -, rfl⟩ | ⟨-, rfl⟩ <;> exact ⟨rfl, rfl⟩
  | ldBVx x => rcases execLdBVx_cases h with ⟨-, rfl⟩ | ⟨-, rfl⟩ <;> exact ⟨rfl, rfl⟩
  | ldMemVx x => rcases execLdMemVx_cases h with ⟨-, rfl⟩ | ⟨-, rfl⟩ <;> exact ⟨rfl, rfl⟩
  | ldVxMem x => rcases execLdVxMem_cases h with ⟨-, rfl⟩ | ⟨-, rfl⟩ <;> exact ⟨rfl, rfl⟩
  | skpVx x =>
    obtain rfl := Host.Outcome.next.inj h
    rcases s.keySkip_cases x true with ⟨-, hk⟩ | ⟨-, hk⟩ <;> rw [hk]
    · exact ⟨rfl, rfl⟩
    · exact ⟨s.skipIf_dt _, s.skipIf_st _⟩
  | sknpVx x =>
    obtain rfl := Host.Outcome.next.inj h
    rcases s.keySkip_cases x false with ⟨-, hk⟩ | ⟨-, hk⟩ <;> rw [hk]
    · exact ⟨rfl, rfl⟩
    · exact ⟨s.skipIf_dt _, s.skipIf_st _⟩
  | seVxKk | sneVxKk | seVxVy | sneVxVy =>
    obtain rfl := Host.Outcome.next.inj h
    exact ⟨s.skipIf_dt _, s.skipIf_st _⟩
  | _ =>
    obtain rfl := Host.Outcome.next.inj h
    exact ⟨rfl, rfl⟩

/-- A cycle without a fault at its end fetched an instruction, ran its handler to the end and ticked. -/
theorem step_unfaulted {s t : State} (hv : s.fault.valid = false) (h : step s = .next t)
    (ht : t.fault.valid = false) :
    s.pc.toNat ≤ 0x0FFE ∧ ∃ u, exec (decodeWord s.fetchWord) s.advance = .next u ∧ t = u.tick := by
  by_cases hp : s.pc.toNat ≤ 0x0FFE
  · rcases step_fetch_cases hv hp h with ⟨c, info, -, -, rfl⟩ | ⟨u, hu, -, rfl⟩
    · cases ht
    · exact ⟨hp, u, hu, rfl⟩
  · rw [step_of_unfetchable hv (by omega)] at h
    obtain rfl := Host.Outcome.next.inj h
    cases ht

/-- The tick takes one off what the handler left in each timer, in every cycle that does not fault (R125). -/
theorem step_timers {s t : State} (hv : s.fault.valid = false) (h : step s = .next t) (ht : t.fault.valid = false) :
    t.dt.toNat = (s.handlerDt (decodeWord s.fetchWord)).toNat - 1 ∧
      t.st.toNat = (s.handlerSt (decodeWord s.fetchWord)).toNat - 1 := by
  obtain ⟨-, u, hu, rfl⟩ := step_unfaulted hv h ht
  obtain ⟨hdt, hst⟩ := exec_timers hu
  rw [State.tick_dt, State.tick_st, tickTimer_toNat, tickTimer_toNat, hdt, hst]
  exact ⟨rfl, rfl⟩

/-- Settles O8: the handler leaves the timers as `exec_timers` says, and the tick comes after it. -/
theorem timersTickInEveryCycle : Obligations.TimersTickInEveryCycle := by
  intro s t hv h ht
  obtain ⟨hdt, hst⟩ := step_timers hv h ht
  refine ⟨fun x hi => ?_, fun hi => ?_, fun x hi => ?_, fun hi => ?_, fun x hi => ?_⟩
  · rw [hdt, hi, State.handlerDt_ldDtVx]
  · rw [hdt, s.handlerDt_of_ne hi]
  · rw [hst, hi, State.handlerSt_ldStVx]
  · rw [hst, s.handlerSt_of_ne hi]
  · obtain ⟨-, u, hu, rfl⟩ := step_unfaulted hv h ht
    rw [hi] at hu
    obtain rfl := Host.Outcome.next.inj hu
    exact s.advance.reg_setReg_same x s.dt

/-! ### The no-op, R126 -/

/-- `unmapped` is the table's own condition: no row selects the word (30_encoding.md R101). -/
theorem unmapped_iff_no_row {w : Word} : unmapped w = true ↔ ∀ r ∈ opcodeTable, w &&& r.mask ≠ r.value := by
  simp [unmapped, OpRow.selects]

/-- The no-op handler leaves every state as it is (R126). -/
@[simp] theorem exec_nop (w : Word) (s : State) : exec (.nop w) s = .next s := rfl

/-- A cycle that fetches a no-op is the advance and the tick. -/
theorem step_of_nop {s : State} {w : Word} (hv : s.fault.valid = false) (hp : s.pc.toNat ≤ 0x0FFE)
    (hw : decodeWord s.fetchWord = .nop w) : step s = .next s.advance.tick := by
  rw [step_of_fetch hv hp (by rw [hw, exec_nop]), State.endCycle_of_not_valid (by simpa using hv)]

/-- Settles O9: a word no row selects decodes to the no-op, whose cycle only advances and ticks. -/
theorem unmappedWordsChangeNothing : Obligations.UnmappedWordsChangeNothing := by
  intro w hw
  have hd : decodeWord w = .nop w := decodeWord_of_unmapped (unmapped_iff_no_row.mpr hw)
  refine ⟨fun s => by rw [hd, exec_nop], hd, fun s hv hp hf => ?_⟩
  exact ⟨_, step_of_nop hv hp (hf ▸ hd), rfl, tickTimer_toNat s.dt, tickTimer_toNat s.st⟩

end Sys2Proof.Machine
end

section
/-! PROOFS. Control flow (41_control_flow.md): the two jumps (R141, R147) and the four register and immediate skips
(R143 to R146). -/

namespace Sys2Proof.Machine

open Sys2Proof.Statements

/-! ### Decoding the jumps and skips, 30_encoding.md R101

The statements' words are the encoder's; the register skips alone carry a nibble that the encoder writes as 0. -/

theorem decodeWord_jpNnn (nnn : Addr) : decodeWord (withAddr 0x1 nnn) = .jpNnn nnn :=
  Laws.RoundTrip.jpNnn nnn rfl

theorem decodeWord_jpV0Nnn (nnn : Addr) : decodeWord (withAddr 0xB nnn) = .jpV0Nnn nnn :=
  Laws.RoundTrip.jpV0Nnn nnn rfl

theorem decodeWord_seVxKk (x : RegIx) (kk : Byte) : decodeWord (withByte 0x3 x kk) = .seVxKk x kk :=
  Laws.RoundTrip.seVxKk x kk rfl

theorem decodeWord_sneVxKk (x : RegIx) (kk : Byte) : decodeWord (withByte 0x4 x kk) = .sneVxKk x kk :=
  Laws.RoundTrip.sneVxKk x kk rfl

/-- The word of four nibbles is the encoder's, whatever the nibbles. -/
theorem nibbles_eq_wordOfNibbles (f x y g : Nat) : nibbles f x y g = wordOfNibbles f x y g := rfl

/-- Family 0x5 for every value of the ignored low nibble (R105). -/
theorem decodeWord_seVxVy (x y g : Fin 16) : decodeWord (nibbles 0x5 x y g) = .seVxVy x y := by
  simp [nibbles_eq_wordOfNibbles, decodeWord, fieldF_wordOfNibbles, fieldX_wordOfNibbles, fieldY_wordOfNibbles]

/-- Family 0x9 for every value of the ignored low nibble (R105). -/
theorem decodeWord_sneVxVy (x y g : Fin 16) : decodeWord (nibbles 0x9 x y g) = .sneVxVy x y := by
  simp [nibbles_eq_wordOfNibbles, decodeWord, fieldF_wordOfNibbles, fieldX_wordOfNibbles, fieldY_wordOfNibbles]

/-! ### The handlers -/

theorem exec_jpNnn (nnn : Addr) (s : State) : exec (.jpNnn nnn) s = .next (s.setPc (zextAddr nnn)) := rfl

theorem exec_jpV0Nnn (nnn : Addr) (s : State) :
    exec (.jpV0Nnn nnn) s = .next (s.setPc (zextAddr nnn + zextByte (s.reg 0))) := rfl

theorem exec_seVxKk (x : RegIx) (kk : Byte) (s : State) :
    exec (.seVxKk x kk) s = .next (s.skipIf (s.reg x == kk)) := rfl

theorem exec_sneVxKk (x : RegIx) (kk : Byte) (s : State) :
    exec (.sneVxKk x kk) s = .next (s.skipIf (s.reg x != kk)) := rfl

theorem exec_seVxVy (x y : RegIx) (s : State) :
    exec (.seVxVy x y) s = .next (s.skipIf (s.reg x == s.reg y)) := rfl

theorem exec_sneVxVy (x y : RegIx) (s : State) :
    exec (.sneVxVy x y) s = .next (s.skipIf (s.reg x != s.reg y)) := rfl

/-! ### The jumps' target, R141, R147 -/

/-- The target of jump-with-offset is at most 0xFFF + 0xFF, so the 16-bit sum does not wrap (R147). -/
theorem zextAddr_add_zextByte_toNat (nnn : Addr) (v : Byte) :
    (zextAddr nnn + zextByte v).toNat = nnn.toNat + v.toNat := by
  have hn := nnn.isLt
  have hv := v.isLt
  rw [BitVec.toNat_add, zextAddr_toNat, zextByte_toNat]
  omega

/-- Settles O14: both handlers are a `setPc`, to a target that the 16-bit word holds unreduced. -/
theorem jumpsSetThePc : Obligations.JumpsSetThePc := by
  intro nnn s
  exact ⟨⟨decodeWord_jpNnn nnn, _, exec_jpNnn nnn s, zextAddr_toNat nnn, rfl⟩,
    decodeWord_jpV0Nnn nnn, _, exec_jpV0Nnn nnn s, zextAddr_add_zextByte_toNat nnn (s.reg 0), rfl⟩

/-! ### The skip, R148 -/

/-- Where a skip leaves `pc`, in integers, for a condition `P` that its Boolean test decides. -/
theorem State.skipIf_pc_toNat (s : State) {c : Bool} {P : Prop} [Decidable P] (hc : c = true ↔ P) :
    (s.skipIf c).pc.toNat = if P then (s.pc.toNat + 2) % 65536 else s.pc.toNat := by
  rw [State.skipIf_pc]
  by_cases hP : P
  · rw [if_pos (hc.mpr hP), if_pos hP, BitVec.toNat_add]
    rfl
  · rw [if_neg (fun h => hP (hc.mp h)), if_neg hP]

/-- A skip changes `pc` alone. -/
theorem State.skipIf_frame (s : State) (c : Bool) : s.skipIf c = { s with pc := (s.skipIf c).pc } := by
  cases c <;> rfl

/-- Settles O15: each handler is a `skipIf` whose test decides the instruction's comparison. -/
theorem skipsAdvanceTwoMoreOnTheirCondition : Obligations.SkipsAdvanceTwoMoreOnTheirCondition := by
  intro x y g kk s
  refine ⟨⟨decodeWord_seVxKk x kk, _, exec_seVxKk x kk s, ?_, s.skipIf_frame _⟩,
    ⟨decodeWord_sneVxKk x kk, _, exec_sneVxKk x kk s, ?_, s.skipIf_frame _⟩,
    ⟨decodeWord_seVxVy x y g, _, exec_seVxVy x y s, ?_, s.skipIf_frame _⟩,
    ⟨decodeWord_sneVxVy x y g, _, exec_sneVxVy x y s, ?_, s.skipIf_frame _⟩⟩
  · exact s.skipIf_pc_toNat beq_iff_eq
  · exact s.skipIf_pc_toNat bne_iff_ne
  · exact s.skipIf_pc_toNat beq_iff_eq
  · exact s.skipIf_pc_toNat bne_iff_ne

end Sys2Proof.Machine
end

section
/-! PROOFS. Family 42 (42_alu.md): the two immediates, the move, OR and AND (R160 to R164). -/

namespace Sys2Proof.Machine

open Sys2Proof.Statements

/-! ### Decoding, 30_encoding.md R101

The statements' words are the encoder's. -/

theorem decodeWord_ldVxKk (x : RegIx) (kk : Byte) : decodeWord (withByte 0x6 x kk) = .ldVxKk x kk :=
  Laws.RoundTrip.ldVxKk x kk rfl

theorem decodeWord_addVxKk (x : RegIx) (kk : Byte) : decodeWord (withByte 0x7 x kk) = .addVxKk x kk :=
  Laws.RoundTrip.addVxKk x kk rfl

theorem decodeWord_ldVxVy (x y : RegIx) : decodeWord (nibbles 0x8 x y 0x0) = .ldVxVy x y :=
  Laws.RoundTrip.ldVxVy x y rfl

theorem decodeWord_orVxVy (x y : RegIx) : decodeWord (nibbles 0x8 x y 0x1) = .orVxVy x y :=
  Laws.RoundTrip.orVxVy x y rfl

theorem decodeWord_andVxVy (x y : RegIx) : decodeWord (nibbles 0x8 x y 0x2) = .andVxVy x y :=
  Laws.RoundTrip.andVxVy x y rfl

/-! ### The handlers -/

theorem exec_ldVxKk (x : RegIx) (kk : Byte) (s : State) : exec (.ldVxKk x kk) s = .next (s.setReg x kk) := rfl

theorem exec_addVxKk (x : RegIx) (kk : Byte) (s : State) :
    exec (.addVxKk x kk) s = .next (s.setReg x (s.reg x + kk)) := rfl

theorem exec_ldVxVy (x y : RegIx) (s : State) : exec (.ldVxVy x y) s = .next (s.setReg x (s.reg y)) := rfl

theorem exec_orVxVy (x y : RegIx) (s : State) :
    exec (.orVxVy x y) s = .next (s.setReg x (s.reg x ||| s.reg y)) := rfl

theorem exec_andVxVy (x y : RegIx) (s : State) :
    exec (.andVxVy x y) s = .next (s.setReg x (s.reg x &&& s.reg y)) := rfl

/-! ### The write -/

/-- A `setReg` changes the one register it names, register 0xF included, and nothing else. -/
theorem State.writesReg_setReg (s : State) (x : RegIx) (v : Byte) : writesReg s (s.setReg x v) x v := by
  refine ⟨fun z => ?_, rfl⟩
  rw [State.reg_setReg]
  exact if_congr eq_comm rfl rfl

/-- Settles O19: each handler is one `setReg` of register X, and the value it writes is the library's reading of the
byte operation. -/
theorem loadsMoveAndBitwiseWriteRegisterX : Obligations.LoadsMoveAndBitwiseWriteRegisterX := by
  intro x y kk s
  exact ⟨⟨decodeWord_ldVxKk x kk, _, exec_ldVxKk x kk s, s.writesReg_setReg x kk⟩,
    ⟨decodeWord_addVxKk x kk, _, _, exec_addVxKk x kk s, s.writesReg_setReg x _, BitVec.toNat_add _ _⟩,
    ⟨decodeWord_ldVxVy x y, _, exec_ldVxVy x y s, s.writesReg_setReg x _⟩,
    ⟨decodeWord_orVxVy x y, _, _, exec_orVxVy x y s, s.writesReg_setReg x _, fun _ => BitVec.getLsbD_or⟩,
    ⟨decodeWord_andVxVy x y, _, _, exec_andVxVy x y s, s.writesReg_setReg x _, fun _ => BitVec.getLsbD_and⟩⟩

end Sys2Proof.Machine
end

section
/-! PROOFS. Family 43 (43_index_memory.md): set-index and font-address (R190, R192). -/

namespace Sys2Proof.Machine

open Sys2Proof.Statements

/-! ### Decoding, 30_encoding.md R101

The statements' words are the encoder's. -/

theorem decodeWord_ldINnn (nnn : Addr) : decodeWord (withAddr 0xA nnn) = .ldINnn nnn :=
  Laws.RoundTrip.ldINnn nnn rfl

theorem decodeWord_ldFVx (x : RegIx) : decodeWord (withByte 0xF x 0x29) = .ldFVx x :=
  Laws.RoundTrip.ldFVx x rfl

/-! ### The handlers -/

theorem exec_ldINnn (nnn : Addr) (s : State) : exec (.ldINnn nnn) s = .next (s.setIndex (zextAddr nnn)) := rfl

theorem exec_ldFVx (x : RegIx) (s : State) :
    exec (.ldFVx x) s = .next (s.setIndex (0x50 + 5 * zextByte (s.reg x))) := rfl

/-! ### The glyph's address, R192 -/

/-- The address of a glyph is at most 0x50 + 5 * 0xFF, so the 16-bit arithmetic does not wrap for any register value. -/
theorem fontAddress_toNat (v : Byte) : (0x50 + 5 * zextByte v : Word).toNat = 0x50 + 5 * v.toNat := by
  have hv := v.isLt
  simp only [BitVec.toNat_add, BitVec.toNat_mul, zextByte_toNat, BitVec.reduceToNat]
  omega

/-- Settles O24: both handlers are a `setIndex`, of a value that the 16-bit word holds unreduced. -/
theorem setIndexAndFontAddressWriteIndex : Obligations.SetIndexAndFontAddressWriteIndex := by
  intro x nnn s
  exact ⟨⟨decodeWord_ldINnn nnn, _, exec_ldINnn nnn s, zextAddr_toNat nnn, rfl⟩,
    decodeWord_ldFVx x, _, exec_ldFVx x s, fontAddress_toNat (s.reg x), rfl⟩

end Sys2Proof.Machine
end

section
/-! PROOFS. Family 45 (45_keypad_timers.md): wait-for-key and the three timer moves (R232 to R235). -/

namespace Sys2Proof.Machine

open Sys2Proof.Statements

/-! ### Decoding, 30_encoding.md R101

The statements' words are the encoder's. -/

theorem decodeWord_ldVxK (x : RegIx) : decodeWord (withByte 0xF x 0x0A) = .ldVxK x := Laws.RoundTrip.ldVxK x rfl

theorem decodeWord_ldVxDt (x : RegIx) : decodeWord (withByte 0xF x 0x07) = .ldVxDt x := Laws.RoundTrip.ldVxDt x rfl

theorem decodeWord_ldDtVx (x : RegIx) : decodeWord (withByte 0xF x 0x15) = .ldDtVx x := Laws.RoundTrip.ldDtVx x rfl

theorem decodeWord_ldStVx (x : RegIx) : decodeWord (withByte 0xF x 0x18) = .ldStVx x := Laws.RoundTrip.ldStVx x rfl

/-! ### The handlers -/

theorem exec_ldVxDt (x : RegIx) (s : State) : exec (.ldVxDt x) s = .next (s.setReg x s.dt) := rfl

theorem exec_ldDtVx (x : RegIx) (s : State) : exec (.ldDtVx x) s = .next (s.setDt (s.reg x)) := rfl

theorem exec_ldStVx (x : RegIx) (s : State) : exec (.ldStVx x) s = .next (s.setSt (s.reg x)) := rfl

/-- Wait-for-key with a key down stores the least one: of two keys that are each the least, neither is below the
other. -/
theorem exec_ldVxK_of_least_key (x : RegIx) {s : State} {k : Nat} (hk : k < 16) (hdown : s.key k = true)
    (hleast : ∀ j, j < k → s.key j = false) : exec (.ldVxK x) s = .next (s.setReg x (BitVec.ofNat 8 k)) := by
  obtain ⟨t, ht⟩ := exec_answers (.ldVxK x) s
  rcases execLdVxK_cases ht with ⟨i, -, hi, hbelow, rfl⟩ | ⟨hnone, -⟩
  · have hki : ¬ k < i := fun h => by simp [hbelow k h] at hdown
    have hik : ¬ i < k := fun h => by simp [hleast i h] at hi
    obtain rfl : i = k := by omega
    exact ht
  · simp [hnone k hk] at hdown

/-- Wait-for-key with no key down goes back by 2. -/
theorem exec_ldVxK_of_no_key (x : RegIx) {s : State} (hnone : ∀ k, k < 16 → s.key k = false) :
    exec (.ldVxK x) s = .next (s.setPc (s.pc - 2)) := by
  obtain ⟨t, ht⟩ := exec_answers (.ldVxK x) s
  rcases execLdVxK_cases ht with ⟨i, hi, hdown, -, -⟩ | ⟨-, rfl⟩
  · simp [hnone i hi] at hdown
  · exact ht

/-! ### The whole cycle, 40_cycle_driver.md R120 -/

/-- A cycle whose handler leaves the fault register alone is the handler on the advanced state, then the tick. -/
theorem step_of_fetches {s t : State} {i : Instr} (hf : fetches s i) (he : exec i s.advance = .next t)
    (hfault : t.fault = s.fault) : step s = .next t.tick := by
  obtain ⟨hv, hp, hi⟩ := hf
  rw [step_of_fetch hv hp (hi ▸ he), State.endCycle_of_not_valid (hfault ▸ hv)]

/-- Going back by 2 undoes the cycle's advance (R232: net zero advance). -/
theorem State.advance_setPc_back (s : State) : s.advance.setPc (s.advance.pc - 2) = s :=
  congrArg s.setPc s.handlerAddress_advance

/-- A waiting cycle is the tick alone (R232). -/
theorem step_of_waiting {x : RegIx} {s : State} (hf : fetches s (.ldVxK x)) (hnone : ∀ k, k < 16 → s.key k = false) :
    step s = .next s.tick := by
  have he : exec (.ldVxK x) s.advance = .next s := by
    rw [exec_ldVxK_of_no_key x (s := s.advance) hnone, s.advance_setPc_back]
  exact step_of_fetches hf he rfl

/-- Settles O36: the handler by its two cases, and the waiting cycle as the tick alone. -/
theorem waitForKeyTakesTheLeastKeyOrWaits : Obligations.WaitForKeyTakesTheLeastKeyOrWaits := by
  intro x s
  refine ⟨decodeWord_ldVxK x, fun k hdown hleast => ?_, fun hnone => ?_⟩
  · have hk := k.isLt
    refine ⟨_, _, exec_ldVxK_of_least_key x hk hdown hleast, s.writesReg_setReg x _, ?_⟩
    rw [BitVec.toNat_ofNat]
    exact Nat.mod_eq_of_lt (by omega)
  · have hup : ∀ k, k < 16 → s.key k = false := fun k hk => hnone ⟨k, hk⟩
    refine ⟨⟨_, exec_ldVxK_of_no_key x hup, rfl, ?_⟩, fun hf => ?_⟩
    · rw [State.setPc_pc, BitVec.toNat_sub, Nat.add_comm]
      rfl
    · exact ⟨_, step_of_waiting hf hup, rfl, tickTimer_toNat s.dt, tickTimer_toNat s.st⟩

/-- Settles O37: each handler is one write of its destination, and the tick of the same cycle follows it. -/
theorem timerMovesCopyAndTheTickFollows : Obligations.TimerMovesCopyAndTheTickFollows := by
  intro x s
  refine ⟨⟨decodeWord_ldVxDt x, ⟨_, exec_ldVxDt x s, s.writesReg_setReg x s.dt⟩, fun hf => ?_⟩,
    ⟨decodeWord_ldDtVx x, ⟨_, exec_ldDtVx x s, rfl⟩, fun hf => ?_⟩,
    ⟨decodeWord_ldStVx x, ⟨_, exec_ldStVx x s, rfl⟩, fun hf => ?_⟩⟩
  · exact ⟨_, step_of_fetches hf (exec_ldVxDt x s.advance) rfl, s.advance.reg_setReg_same x s.dt,
      tickTimer_toNat s.dt⟩
  · exact ⟨_, step_of_fetches hf (exec_ldDtVx x s.advance) rfl, tickTimer_toNat (s.reg x)⟩
  · exact ⟨_, step_of_fetches hf (exec_ldStVx x s.advance) rfl, tickTimer_toNat (s.reg x)⟩

end Sys2Proof.Machine
end

section
/-! PROOFS. Encoding (30_encoding.md): the round trip (R90, R105), every pattern with its ignored bits (R100, R101),
and the dispatch against the mask-and-match rows (R94 to R101). -/

namespace Sys2Proof.Machine

open Sys2Proof.Statements

/-! ### The round trip -/

/-- The word of a well-formed instruction decodes to it: the constructors' laws put together. -/
theorem decodeWord_encodeWord {i : Instr} (h : i.wellFormed = true) : decodeWord (encodeWord i) = i := by
  cases i with
  | cls => exact Laws.RoundTrip.cls h
  | ret => exact Laws.RoundTrip.ret h
  | jpNnn nnn => exact Laws.RoundTrip.jpNnn nnn h
  | callNnn nnn => exact Laws.RoundTrip.callNnn nnn h
  | seVxKk x kk => exact Laws.RoundTrip.seVxKk x kk h
  | sneVxKk x kk => exact Laws.RoundTrip.sneVxKk x kk h
  | seVxVy x y => exact Laws.RoundTrip.seVxVy x y h
  | ldVxKk x kk => exact Laws.RoundTrip.ldVxKk x kk h
  | addVxKk x kk => exact Laws.RoundTrip.addVxKk x kk h
  | ldVxVy x y => exact Laws.RoundTrip.ldVxVy x y h
  | orVxVy x y => exact Laws.RoundTrip.orVxVy x y h
  | andVxVy x y => exact Laws.RoundTrip.andVxVy x y h
  | xorVxVy x y => exact Laws.RoundTrip.xorVxVy x y h
  | addVxVy x y => exact Laws.RoundTrip.addVxVy x y h
  | subVxVy x y => exact Laws.RoundTrip.subVxVy x y h
  | shrVx x => exact Laws.RoundTrip.shrVx x h
  | subnVxVy x y => exact Laws.RoundTrip.subnVxVy x y h
  | shlVx x => exact Laws.RoundTrip.shlVx x h
  | sneVxVy x y => exact Laws.RoundTrip.sneVxVy x y h
  | ldINnn nnn => exact Laws.RoundTrip.ldINnn nnn h
  | jpV0Nnn nnn => exact Laws.RoundTrip.jpV0Nnn nnn h
  | rndVxKk x kk => exact Laws.RoundTrip.rndVxKk x kk h
  | drwVxVyN x y n => exact Laws.RoundTrip.drwVxVyN x y n h
  | skpVx x => exact Laws.RoundTrip.skpVx x h
  | sknpVx x => exact Laws.RoundTrip.sknpVx x h
  | ldVxDt x => exact Laws.RoundTrip.ldVxDt x h
  | ldVxK x => exact Laws.RoundTrip.ldVxK x h
  | ldDtVx x => exact Laws.RoundTrip.ldDtVx x h
  | ldStVx x => exact Laws.RoundTrip.ldStVx x h
  | addIVx x => exact Laws.RoundTrip.addIVx x h
  | ldFVx x => exact Laws.RoundTrip.ldFVx x h
  | ldBVx x => exact Laws.RoundTrip.ldBVx x h
  | ldMemVx x => exact Laws.RoundTrip.ldMemVx x h
  | ldVxMem x => exact Laws.RoundTrip.ldVxMem x h
  | nop w => exact Laws.RoundTrip.nop w h

/-- Settles O5: the two encoded bytes join to the instruction's word, which decodes to it. -/
theorem decodeOfEncodeIsTheInstruction : Obligations.DecodeOfEncodeIsTheInstruction := by
  intro i rest h
  rw [encode, List.cons_append, List.cons_append, List.nil_append, decode_two, wordOfBytes_bytesOfWord,
    decodeWord_encodeWord h]

/-! ### Every pattern, whatever its ignored bits, R100, R101

A pattern without ignored bits is the encoder's word; the others are read through their fields. -/

theorem decodeWord_cls (g h : Fin 16) : decodeWord (nibbles 0x0 g h 0x0) = .cls := by
  simp [nibbles_eq_wordOfNibbles, decodeWord, decodeFamily0, fieldF_wordOfNibbles, key4_wordOfNibbles]

theorem decodeWord_ret (g h : Fin 16) : decodeWord (nibbles 0x0 g h 0xE) = .ret := by
  simp [nibbles_eq_wordOfNibbles, decodeWord, decodeFamily0, fieldF_wordOfNibbles, key4_wordOfNibbles]

theorem decodeWord_callNnn (nnn : Addr) : decodeWord (withAddr 0x2 nnn) = .callNnn nnn :=
  Laws.RoundTrip.callNnn nnn rfl

theorem decodeWord_xorVxVy (x y : RegIx) : decodeWord (nibbles 0x8 x y 0x3) = .xorVxVy x y :=
  Laws.RoundTrip.xorVxVy x y rfl

theorem decodeWord_addVxVy (x y : RegIx) : decodeWord (nibbles 0x8 x y 0x4) = .addVxVy x y :=
  Laws.RoundTrip.addVxVy x y rfl

theorem decodeWord_subVxVy (x y : RegIx) : decodeWord (nibbles 0x8 x y 0x5) = .subVxVy x y :=
  Laws.RoundTrip.subVxVy x y rfl

theorem decodeWord_subnVxVy (x y : RegIx) : decodeWord (nibbles 0x8 x y 0x7) = .subnVxVy x y :=
  Laws.RoundTrip.subnVxVy x y rfl

theorem decodeWord_shrVx (x g : Fin 16) : decodeWord (nibbles 0x8 x g 0x6) = .shrVx x := by
  simp [nibbles_eq_wordOfNibbles, decodeWord, decodeFamily8, fieldF_wordOfNibbles, fieldX_wordOfNibbles,
    key4_wordOfNibbles]

theorem decodeWord_shlVx (x g : Fin 16) : decodeWord (nibbles 0x8 x g 0xE) = .shlVx x := by
  simp [nibbles_eq_wordOfNibbles, decodeWord, decodeFamily8, fieldF_wordOfNibbles, fieldX_wordOfNibbles,
    key4_wordOfNibbles]

theorem decodeWord_rndVxKk (x : RegIx) (kk : Byte) : decodeWord (withByte 0xC x kk) = .rndVxKk x kk :=
  Laws.RoundTrip.rndVxKk x kk rfl

theorem decodeWord_drwVxVyN (x y n : Fin 16) : decodeWord (nibbles 0xD x y n) = .drwVxVyN x y n :=
  Laws.RoundTrip.drwVxVyN x y n rfl

theorem decodeWord_skpVx (x g : Fin 16) : decodeWord (nibbles 0xE x g 0xE) = .skpVx x := by
  simp [nibbles_eq_wordOfNibbles, decodeWord, decodeFamilyE, fieldF_wordOfNibbles, fieldX_wordOfNibbles,
    key4_wordOfNibbles]

theorem decodeWord_sknpVx (x g : Fin 16) : decodeWord (nibbles 0xE x g 0x1) = .sknpVx x := by
  simp [nibbles_eq_wordOfNibbles, decodeWord, decodeFamilyE, fieldF_wordOfNibbles, fieldX_wordOfNibbles,
    key4_wordOfNibbles]

theorem decodeWord_addIVx (x : RegIx) : decodeWord (withByte 0xF x 0x1E) = .addIVx x := Laws.RoundTrip.addIVx x rfl

theorem decodeWord_ldBVx (x : RegIx) : decodeWord (withByte 0xF x 0x33) = .ldBVx x := Laws.RoundTrip.ldBVx x rfl

theorem decodeWord_ldMemVx (x : Fin 16) : decodeWord (withByte 0xF x 0x55) = .ldMemVx x :=
  Laws.RoundTrip.ldMemVx x rfl

theorem decodeWord_ldVxMem (x : Fin 16) : decodeWord (withByte 0xF x 0x65) = .ldVxMem x :=
  Laws.RoundTrip.ldVxMem x rfl

/-- The two low nibbles of a word as one byte. -/
theorem decodeWord_nibbles {f a b : Nat} {x : RegIx} {kk : Byte} {i : Instr} (hi : decodeWord (withByte f x kk) = i)
    (h : 0x10 * a + b = kk.toNat) : decodeWord (nibbles f x a b) = i := by
  rw [← hi, nibbles, withByte, ← h, Nat.add_assoc]

/-- Settles O2: pattern by pattern, a row of the opcode map at a time. -/
theorem everyPatternDecodesToItsInstruction : Obligations.EveryPatternDecodesToItsInstruction := by
  intro x y n g h kk nnn
  refine ⟨⟨decodeWord_cls g h, decodeWord_ret g h, decodeWord_jpNnn nnn, decodeWord_callNnn nnn,
      decodeWord_seVxKk x kk, decodeWord_sneVxKk x kk, decodeWord_seVxVy x y g, decodeWord_ldVxKk x kk,
      decodeWord_addVxKk x kk⟩,
    ⟨decodeWord_ldVxVy x y, decodeWord_orVxVy x y, decodeWord_andVxVy x y, decodeWord_xorVxVy x y,
      decodeWord_addVxVy x y, decodeWord_subVxVy x y, decodeWord_shrVx x g, decodeWord_subnVxVy x y,
      decodeWord_shlVx x g⟩,
    ⟨decodeWord_sneVxVy x y g, decodeWord_ldINnn nnn, decodeWord_jpV0Nnn nnn, decodeWord_rndVxKk x kk,
      decodeWord_drwVxVyN x y n, decodeWord_skpVx x g, decodeWord_sknpVx x g⟩, ?_⟩
  exact ⟨decodeWord_nibbles (decodeWord_ldVxDt x) rfl, decodeWord_nibbles (decodeWord_ldVxK x) rfl,
    decodeWord_nibbles (decodeWord_ldDtVx x) rfl, decodeWord_nibbles (decodeWord_ldStVx x) rfl,
    decodeWord_nibbles (decodeWord_addIVx x) rfl, decodeWord_nibbles (decodeWord_ldFVx x) rfl,
    decodeWord_nibbles (decodeWord_ldBVx x) rfl, decodeWord_nibbles (decodeWord_ldMemVx x) rfl,
    decodeWord_nibbles (decodeWord_ldVxMem x) rfl⟩

/-- Settles O1: eight closed words, run through the decoder. -/
theorem writtenOutWordsDecode : Obligations.WrittenOutWordsDecode := by
  unfold Obligations.WrittenOutWordsDecode
  decide

/-! ### The rows and the dispatch, R94 to R101 -/

/-- What a row's mask and value say of a word's family and key. -/
theorem fields_of_selects {op : Word} {r : OpRow} (hr : r ∈ opcodeTable) (h : op &&& r.mask = r.value) :
    fieldF op = r.value.toNat / 4096 ∧ (r.mask = 0xF00F → key4 op = r.value.toNat % 4096) ∧
      (r.mask = 0xF0FF → key8 op = r.value.toNat % 4096) := by
  have hmask : ∀ r ∈ opcodeTable, r.mask = 0xF000 ∨ r.mask = 0xF00F ∨ r.mask = 0xF0FF := by decide
  have h4 := key4_lt op
  have h8 := key8_lt op
  rcases hmask r hr with hm | hm | hm <;> rw [hm] at h ⊢
  · rw [and_F000_eq_iff] at h
    exact ⟨by omega, fun hk => absurd hk (by decide), fun hk => absurd hk (by decide)⟩
  · rw [and_F00F_eq_iff] at h
    exact ⟨by omega, fun _ => by omega, fun hk => absurd hk (by decide)⟩
  · rw [and_F0FF_eq_iff] at h
    exact ⟨by omega, fun hk => absurd hk (by decide), fun _ => by omega⟩

/-- A word that a row selects has the row's family and key, so the dispatch reaches the row's instruction. -/
theorem mnemonic_of_selects {op : Word} {r : OpRow} (hr : r ∈ opcodeTable) (h : op &&& r.mask = r.value) :
    mnemonic (decodeWord op) = r.mnemonic := by
  obtain ⟨hf, h4, h8⟩ := fields_of_selects hr h
  simp only [opcodeTable, List.cons_append, List.nil_append, List.mem_cons, List.not_mem_nil, or_false] at hr
  rcases hr with rfl | rfl | rfl | rfl | rfl | rfl | rfl | rfl | rfl | rfl | rfl | rfl | rfl | rfl | rfl | rfl | rfl |
    rfl | rfl | rfl | rfl | rfl | rfl | rfl | rfl | rfl | rfl | rfl | rfl | rfl | rfl | rfl | rfl | rfl
  all_goals
    simp [decodeWord, decodeFamily0, decodeFamily8, decodeFamilyE, decodeFamilyF, mnemonic, hf, h4, h8]

/-- A mnemonic names one row of the table. -/
theorem opcodeTable_mnemonic_inj : ∀ r ∈ opcodeTable, ∀ q ∈ opcodeTable, r.mnemonic = q.mnemonic → r = q := by
  decide

theorem opcodeTable_nodup : opcodeTable.Nodup := by decide

/-- No row is the no-op's. -/
theorem opcodeTable_mnemonic_ne_nop : ∀ r ∈ opcodeTable, r.mnemonic ≠ "NOP" := by decide

/-- Settles O4: two rows that select one word have its mnemonic both, and no two rows share a mnemonic. -/
theorem opcodeRowsAreDisjoint : Obligations.OpcodeRowsAreDisjoint := by
  intro op
  refine opcodeTable_nodup.imp_of_mem fun {r q} hr hq hne ⟨h1, h2⟩ => hne ?_
  exact opcodeTable_mnemonic_inj r hr q hq ((mnemonic_of_selects hr h1).symm.trans (mnemonic_of_selects hq h2))

/-- A word is unmapped, or some row selects it. -/
theorem unmapped_or_selected (op : Word) : unmapped op = true ∨ ∃ r ∈ opcodeTable, op &&& r.mask = r.value := by
  rw [unmapped_iff_no_row]
  by_cases h : ∃ r ∈ opcodeTable, op &&& r.mask = r.value
  · exact .inr h
  · exact .inl fun r hr he => h ⟨r, hr, he⟩

/-- Settles O3. A selected word has the row's mnemonic; the other way round, a word with a row's mnemonic is selected by
some row, which has that mnemonic too and so is the same row. -/
theorem dispatchAgreesWithTheOpcodeTable : Obligations.DispatchAgreesWithTheOpcodeTable := by
  intro op
  refine ⟨fun r hr => ⟨mnemonic_of_selects hr, fun hm => ?_⟩, fun h => ?_, fun h r hr hsel => ?_⟩
  · rcases unmapped_or_selected op with hu | ⟨q, hq, hsel⟩
    · rw [decodeWord_of_unmapped hu] at hm
      exact absurd hm.symm (opcodeTable_mnemonic_ne_nop r hr)
    · have hqr := opcodeTable_mnemonic_inj q hq r hr ((mnemonic_of_selects hq hsel).symm.trans hm)
      exact hqr ▸ hsel
  · exact decodeWord_of_unmapped (unmapped_iff_no_row.mpr h)
  · have hm := mnemonic_of_selects hr hsel
    rw [h] at hm
    exact opcodeTable_mnemonic_ne_nop r hr hm.symm

/-- Only a no-op can be ill-formed. -/
theorem wellFormed_of_mnemonic_ne {i : Instr} (h : mnemonic i ≠ "NOP") : i.wellFormed = true := by
  cases i with
  | nop w => exact absurd rfl h
  | _ => rfl

theorem wellFormed_decodeWord (op : Word) : (decodeWord op).wellFormed = true := by
  rcases unmapped_or_selected op with hu | ⟨r, hr, hsel⟩
  · rw [decodeWord_of_unmapped hu]
    exact hu
  · exact wellFormed_of_mnemonic_ne (mnemonic_of_selects hr hsel ▸ opcodeTable_mnemonic_ne_nop r hr)

/-- Settles O6: two bytes are a word, and every word decodes to a well-formed instruction. -/
theorem decodeGivesWellFormedInstructions : Obligations.DecodeGivesWellFormedInstructions := by
  intro hi lo rest
  exact ⟨_, decode_two hi lo rest, wellFormed_decodeWord _⟩

end Sys2Proof.Machine
end

section
/-! PROOFS. What a handler can do, said once: when it raises (60_exceptions.md R251) and, where it does not, which part
of the state it writes (10_state.md R22 to R25, R43). -/

namespace Sys2Proof.Machine

open Sys2Proof.Statements

/-! ### The memory instructions in range, 20_memory.md R67 -/

theorem exec_ldBVx {x : RegIx} {s : State} (h : s.inRange 3 = true) :
    exec (.ldBVx x) s = .next (s.setMem (s.mem.writeBytes (s.effAddr 0) (bcdDigits (s.reg x)))) := if_pos h

theorem exec_ldMemVx {x : Fin 16} {s : State} (h : s.inRange x.val = true) :
    exec (.ldMemVx x) s = .next (s.setMem (s.mem.writeBytes (s.effAddr 0) (s.firstRegs x.val))) := if_pos h

theorem exec_ldVxMem {x : Fin 16} {s : State} (h : s.inRange x.val = true) :
    exec (.ldVxMem x) s = .next (s.setRegs (s.loadedRegs x.val)) := if_pos h

/-! ### Conditions of a raise, 60_exceptions.md R251 -/

/-- Instruction `i` run in state `s` raises cause `c` with `info`. -/
inductive Raises (s : State) : Instr → FaultCause → Word → Prop
  | ret : s.sp = 0 → Raises s .ret .stackUnderflow 0
  | call (nnn : Addr) : s.sp = 16 → Raises s (.callNnn nnn) .stackOverflow 16
  | bcdStore (x : RegIx) : s.inRange 3 = false → Raises s (.ldBVx x) .memWriteOutOfRange s.lowestOutside
  | blockStore (x : Fin 16) : s.inRange x.val = false → Raises s (.ldMemVx x) .memWriteOutOfRange s.lowestOutside
  | blockLoad (x : Fin 16) : s.inRange x.val = false → Raises s (.ldVxMem x) .memReadOutOfRange s.lowestOutside
  | drawRead (x y : RegIx) (n : Fin 16) :
    s.inRange n.val = false → Raises s (.drwVxVyN x y n) .memReadOutOfRange s.lowestOutside
  | drawPast (x y : RegIx) (n : Fin 16) (k : Nat) : s.inRange n.val = true → k ∈ s.drawCells x y n.val → 2047 < k →
    (∀ j ∈ s.drawCells x y n.val, j < k → j ≤ 2047) →
    Raises s (.drwVxVyN x y n) .framebufferOutOfRange (BitVec.ofNat 16 k)
  | skp (x : RegIx) : 15 < (s.reg x).toNat → Raises s (.skpVx x) .keyIndexOutOfRange (zextByte (s.reg x))
  | sknp (x : RegIx) : 15 < (s.reg x).toNat → Raises s (.sknpVx x) .keyIndexOutOfRange (zextByte (s.reg x))

/-- Each condition raises its fault. -/
theorem exec_of_raises {s : State} {i : Instr} {c : FaultCause} {info : Word} (h : Raises s i c info) :
    exec i s = .next (s.raise c info) := by
  cases h with
  | ret h => exact execRet_empty h
  | call nnn h => exact execCallNnn_full h
  | bcdStore x h | blockStore x h | blockLoad x h => exact if_neg (Bool.eq_false_iff.mp h)
  | drawRead x y n h => exact execDrwVxVyN_unreadable h
  | drawPast x y n k hr hk hpast hfirst => exact execDrwVxVyN_past hr hk hpast hfirst
  | skp x h | sknp x h => exact congrArg Host.Outcome.next (if_pos h)

/-- The conditions read the registers, `sp`, `I` and memory only, so they hold in every state with the same. -/
theorem Raises.congr {s s' : State} {i : Instr} {c : FaultCause} {info : Word} (h : Raises s i c info)
    (hregs : s'.regs = s.regs) (hsp : s'.sp = s.sp) (hindex : s'.index = s.index) (hmem : s'.mem = s.mem) :
    Raises s' i c info := by
  obtain ⟨regs, pc, index, stack, sp, dt, st, keys, fb, mem, fault, draws⟩ := s
  obtain ⟨regs', pc', index', stack', sp', dt', st', keys', fb', mem', fault', draws'⟩ := s'
  obtain rfl : regs' = regs := hregs
  obtain rfl : sp' = sp := hsp
  obtain rfl : index' = index := hindex
  obtain rfl : mem' = mem := hmem
  cases h with
  | ret h => exact .ret h
  | call nnn h => exact .call nnn h
  | bcdStore x h => exact .bcdStore x h
  | blockStore x h => exact .blockStore x h
  | blockLoad x h => exact .blockLoad x h
  | drawRead x y n h => exact .drawRead x y n h
  | drawPast x y n k hr hk hpast hfirst => exact .drawPast x y n k hr hk hpast hfirst
  | skp x h => exact .skp x h
  | sknp x h => exact .sknp x h

/-- Among cells of which one is past the last there is a first past the last. -/
theorem exists_first_past {cells : List Nat} {k : Nat} (hk : k ∈ cells) (hpast : 2047 < k) :
    ∃ j ∈ cells, 2047 < j ∧ ∀ i ∈ cells, i < j → i ≤ 2047 := by
  have hex : ∃ j, j ∈ cells ∧ 2047 < j := ⟨k, hk, hpast⟩
  obtain ⟨hj, hjpast⟩ := Nat.find_spec hex
  exact ⟨Nat.find hex, hj, hjpast, fun i hi hlt => Nat.le_of_not_lt fun h => Nat.find_min hex hlt ⟨hi, h⟩⟩

/-! ### What a handler can do -/

/-- The instructions that write `I` (10_state.md R27). -/
def writesIndex (i : Instr) : Prop := (∃ nnn, i = .ldINnn nnn) ∨ (∃ x, i = .addIVx x) ∨ ∃ x, i = .ldFVx x

/-- The instructions that store to memory (10_state.md R36). -/
def storesBytes (i : Instr) : Prop := (∃ x, i = .ldBVx x) ∨ ∃ x, i = .ldMemVx x

/-- The next states a handler may answer, by the part of the state it writes. -/
inductive Effect (s : State) : Instr → State → Prop
  | raise {i : Instr} {c : FaultCause} {info : Word} (h : Raises s i c info) : Effect s i (s.raise c info)
  | regs {i : Instr} (v : Vector Byte 16) (h : ∀ z : RegIx, v[z.val] ≠ s.reg z → mayWrite z i) :
    Effect s i (s.setRegs v)
  | random (x : RegIx) (kk v : Byte) : Effect s (.rndVxKk x kk) (s.setReg x v).useDraw
  | draw (x y : RegIx) (n : Fin 16) (f : Framebuffer) (v : Byte) :
    Effect s (.drwVxVyN x y n) ((s.setFb f).setReg flagReg v)
  | clear : Effect s .cls (s.setFb 0)
  | pc {i : Instr} (a : Word) (h : mayWritePc i) : Effect s i (s.setPc a)
  | ret (h : 0 < s.sp.val) : Effect s .ret { s with pc := s.stack[s.sp.val - 1], sp := ⟨s.sp.val - 1, by omega⟩ }
  | call (nnn : Addr) (h : s.sp.val < 16) : Effect s (.callNnn nnn)
      { s with pc := zextAddr nnn, stack := s.stack.set s.sp.val s.pc, sp := ⟨s.sp.val + 1, Nat.succ_lt_succ h⟩ }
  | index {i : Instr} (v : Word) (h : writesIndex i) : Effect s i (s.setIndex v)
  | store {i : Instr} (a : Nat) (bs : List Byte) (h : storesBytes i) : Effect s i (s.setMem (s.mem.writeBytes a bs))
  | delay (x : RegIx) : Effect s (.ldDtVx x) (s.setDt (s.reg x))
  | sound (x : RegIx) : Effect s (.ldStVx x) (s.setSt (s.reg x))
  | nop (w : Word) : Effect s (.nop w) s

/-- A write of the one register an instruction names. -/
theorem Effect.setReg {s : State} {i : Instr} (x : RegIx) (v : Byte) (h : mayWrite x i) : Effect s i (s.setReg x v) := by
  refine .regs (s.regs.set x.val v) fun z hz => ?_
  by_cases hx : x = z
  · exact hx ▸ h
  · exact absurd (State.reg_setReg_other s hx v) hz

/-- A flag instruction's two writes (42_alu.md R173). -/
theorem Effect.flagThenResult {s : State} {i : Instr} (c : Bool) (x : RegIx) (v : Byte) (hx : mayWrite x i)
    (hf : mayWrite flagReg i) : Effect s i (s.flagThenResult c x v) := by
  refine .regs ((s.regs.set 15 (flagByte c)).set x.val v) fun z hz => ?_
  have hz' : (s.flagThenResult c x v).reg z ≠ s.reg z := hz
  rw [State.reg_flagThenResult] at hz'
  split at hz'
  · next h => exact h ▸ hx
  · split at hz'
    · next h => exact h ▸ hf
    · exact absurd rfl hz'

theorem Effect.skipIf {s : State} {i : Instr} (c : Bool) (h : mayWritePc i) : Effect s i (s.skipIf c) := by
  cases c with
  | true => exact .pc _ h
  | false => exact .pc s.pc h

theorem Effect.keySkip {s : State} {i : Instr} (x : RegIx) (pressed : Bool) (h : mayWritePc i)
    (hr : 15 < (s.reg x).toNat → Raises s i .keyIndexOutOfRange (zextByte (s.reg x))) :
    Effect s i (s.keySkip x pressed) := by
  rcases s.keySkip_cases x pressed with ⟨hx, hk⟩ | ⟨-, hk⟩ <;> rw [hk]
  · exact .raise (hr hx)
  · exact .skipIf _ h

/-- Everything a handler can do. -/
theorem exec_effect {i : Instr} {s t : State} (h : exec i s = .next t) : Effect s i t := by
  cases i with
  | ret =>
    rcases execRet_cases h with ⟨h0, rfl⟩ | ⟨hp, rfl⟩
    · exact .raise (.ret h0)
    · exact .ret hp
  | callNnn nnn =>
    rcases execCallNnn_cases h with ⟨h16, rfl⟩ | ⟨hp, rfl⟩
    · exact .raise (.call nnn h16)
    · exact .call nnn hp
  | drwVxVyN x y n =>
    rcases execDrwVxVyN_cases h with ⟨hr, rfl⟩ | ⟨hr, k, hk, hpast, -⟩ | ⟨-, -, f, rfl, -⟩
    · exact .raise (.drawRead x y n hr)
    · obtain ⟨j, hj, hjpast, hfirst⟩ := exists_first_past hk hpast
      have hraise := Raises.drawPast x y n j hr hj hjpast hfirst
      rw [exec_of_raises hraise] at h
      exact Host.Outcome.next.inj h ▸ .raise hraise
    · exact .draw x y n f _
  | ldVxK x =>
    rcases execLdVxK_cases h with ⟨k, -, -, -, rfl⟩ | ⟨-, rfl⟩
    · exact .setReg x _ rfl
    · exact .pc _ trivial
  | ldBVx x =>
    rcases execLdBVx_cases h with ⟨hr, rfl⟩ | ⟨-, rfl⟩
    · exact .raise (.bcdStore x hr)
    · exact .store _ _ (.inl ⟨x, rfl⟩)
  | ldMemVx x =>
    rcases execLdMemVx_cases h with ⟨hr, rfl⟩ | ⟨-, rfl⟩
    · exact .raise (.blockStore x hr)
    · exact .store _ _ (.inr ⟨x, rfl⟩)
  | ldVxMem x =>
    rcases execLdVxMem_cases h with ⟨hr, rfl⟩ | ⟨-, rfl⟩
    · exact .raise (.blockLoad x hr)
    · refine .regs _ fun z hz => ?_
      rw [State.loadedRegs_getElem] at hz
      split at hz
      · next hlt => exact hlt
      · exact absurd rfl hz
  | skpVx x => exact Host.Outcome.next.inj h ▸ .keySkip x true trivial (.skp x)
  | sknpVx x => exact Host.Outcome.next.inj h ▸ .keySkip x false trivial (.sknp x)
  | seVxKk | sneVxKk | seVxVy | sneVxVy => exact Host.Outcome.next.inj h ▸ .skipIf _ trivial
  | jpNnn | jpV0Nnn => exact Host.Outcome.next.inj h ▸ .pc _ trivial
  | ldVxKk x | addVxKk x | ldVxVy x | orVxVy x | andVxVy x | xorVxVy x | ldVxDt x =>
    exact Host.Outcome.next.inj h ▸ .setReg x _ rfl
  | addVxVy x | subVxVy x | shrVx x | subnVxVy x | shlVx x =>
    exact Host.Outcome.next.inj h ▸ .flagThenResult _ x _ (.inl rfl) (.inr rfl)
  | ldINnn nnn => exact Host.Outcome.next.inj h ▸ .index _ (.inl ⟨nnn, rfl⟩)
  | addIVx x => exact Host.Outcome.next.inj h ▸ .index _ (.inr (.inl ⟨x, rfl⟩))
  | ldFVx x => exact Host.Outcome.next.inj h ▸ .index _ (.inr (.inr ⟨x, rfl⟩))
  | cls => exact Host.Outcome.next.inj h ▸ .clear
  | rndVxKk x kk => exact Host.Outcome.next.inj h ▸ .random x kk _
  | ldDtVx x => exact Host.Outcome.next.inj h ▸ .delay x
  | ldStVx x => exact Host.Outcome.next.inj h ▸ .sound x
  | nop w => exact Host.Outcome.next.inj h ▸ .nop w

/-- A handler that raised did so on one of the conditions of R251 (R252: then only the fault register and `pc` differ). -/
theorem Effect.raises {s t : State} {i : Instr} (he : Effect s i t) (hv : s.fault.valid = false)
    (ht : t.fault.valid = true) : ∃ c info, Raises s i c info ∧ t = s.raise c info := by
  cases he with
  | raise h => exact ⟨_, _, h, rfl⟩
  | _ => exact absurd ht (by simp [hv])

/-- A raise changes the fault register and takes the advance of `pc` back (R252). -/
theorem State.raise_frame (s : State) (c : FaultCause) (info : Word) :
    s.raise c info = { s with pc := s.pc - 2, fault := (s.raise c info).fault } := rfl

/-- Settles O50: each effect writes its own part of the state, and a raise the fault register and `pc` alone. -/
theorem handlersWriteOnlyWhatTheirRuleLists : Obligations.HandlersWriteOnlyWhatTheirRuleLists := by
  intro i s t hv h
  cases exec_effect h with
  | @raise _ c info _ => simpa using s.raise_frame c info
  | regs v hreg => simpa [hv] using hreg
  | random x kk v => simp [hv, State.reg_setReg, mayWrite, eq_comm]
  | draw x y n f v => simp [hv, State.reg_setReg, mayWrite, eq_comm, flagReg]
  | clear => simp [hv]
  | pc a hpc => simp [hv, hpc]
  | ret hp => simp [hv, mayWritePc, State.reg_def]
  | call nnn hp => simp [hv, mayWritePc, State.reg_def]
  | index v hi => simpa [hv, writesIndex] using fun _ => hi
  | store a bs hs => simpa [hv, storesBytes] using fun _ _ => hs
  | delay x => simp [hv]
  | sound x => simp [hv]
  | nop w => simp [hv]

end Sys2Proof.Machine
end

section
/-! PROOFS. The cycle (40_cycle_driver.md R120 to R126): the whole of a step, where it leaves `pc` (10_state.md R25), and
the faults it records (60_exceptions.md R251, R252). -/

namespace Sys2Proof.Machine

open Sys2Proof.Statements

/-! ### The whole step, R120 -/

/-- Settles O10: the no-op's handler is the identity. -/
theorem noOpCompletes : Obligations.NoOpCompletes := exec_nop

/-- Settles O11: halted, unfetchable and fetching cycles all answer next. -/
theorem everyStateHasANextState : Obligations.EveryStateHasANextState := step_answers

/-- Settles O7: a halted cycle, a fetch past memory, and a fetching cycle by whether its handler raised. -/
theorem stepRunsTheDecodedInstruction : Obligations.StepRunsTheDecodedInstruction := by
  intro s
  refine ⟨step_of_halted, step_of_unfetchable, fun hv hp i hi => ?_⟩
  obtain rfl : decodeWord s.fetchWord = i := congrArg Prod.fst (Except.ok.inj hi)
  obtain ⟨t, ht⟩ := exec_answers (decodeWord s.fetchWord) s.advance
  refine ⟨t, ht, fun hvt => ?_, fun hvt => ?_⟩
  · rw [step_of_fetch hv hp ht, State.endCycle_of_not_valid hvt]
    rfl
  · obtain ⟨c, info, -, rfl⟩ := (exec_effect ht).raises hv hvt
    refine ⟨by rw [step_of_fetch hv hp ht, State.endCycle_of_valid hvt], ?_⟩
    rw [State.raise_advance]

/-! ### Where a cycle leaves `pc`, 10_state.md R25 -/

/-- A skip on the advanced state, for a condition `P` that its Boolean test decides. -/
theorem State.skipIf_advance_pc (s : State) {c : Bool} {P : Prop} [Decidable P] (hc : c = true ↔ P) :
    (s.advance.skipIf c).pc = if P then s.pc + 4 else s.pc + 2 := by
  rw [State.skipIf_pc, State.advance_pc, BitVec.add_assoc]
  exact if_congr hc rfl rfl

theorem State.keys_eq_zero {s : State} (h : ∀ k, k < 16 → s.key k = false) : s.keys = 0 :=
  BitVec.eq_of_getLsbD_eq fun k hk => (h k hk).trans (by simp)

theorem State.keys_ne_zero {s : State} {k : Nat} (h : s.key k = true) : s.keys ≠ 0 := by
  intro h0
  simp [State.key, h0] at h

/-- Where the handler of a fetched instruction leaves `pc`, when it does not raise. -/
theorem exec_advance_pc {i : Instr} {s t : State} (h : exec i s.advance = .next t) (ht : t.fault.valid = false) :
    t.pc = pcAfter s i := by
  cases i with
  | ret =>
    rcases execRet_cases h with ⟨-, rfl⟩ | ⟨-, rfl⟩
    · cases ht
    · rfl
  | callNnn nnn =>
    rcases execCallNnn_cases h with ⟨-, rfl⟩ | ⟨-, rfl⟩
    · cases ht
    · rfl
  | drwVxVyN x y n =>
    rcases execDrwVxVyN_cases h with ⟨-, rfl⟩ | ⟨-, k, -, -, rfl⟩ | ⟨-, -, f, rfl, -⟩
    · cases ht
    · cases ht
    · rfl
  | ldBVx x =>
    rcases execLdBVx_cases h with ⟨-, rfl⟩ | ⟨-, rfl⟩
    · cases ht
    · rfl
  | ldMemVx x =>
    rcases execLdMemVx_cases h with ⟨-, rfl⟩ | ⟨-, rfl⟩
    · cases ht
    · rfl
  | ldVxMem x =>
    rcases execLdVxMem_cases h with ⟨-, rfl⟩ | ⟨-, rfl⟩
    · cases ht
    · rfl
  | ldVxK x =>
    rcases execLdVxK_cases h with ⟨k, -, hk, -, rfl⟩ | ⟨hnone, rfl⟩
    · exact (if_neg (s.keys_ne_zero hk)).symm
    · rw [pcAfter, if_pos (s.keys_eq_zero hnone)]
      exact s.handlerAddress_advance
  | skpVx x =>
    obtain rfl := Host.Outcome.next.inj h
    rcases s.advance.keySkip_cases x true with ⟨-, hk⟩ | ⟨-, hk⟩ <;> rw [hk] at ht ⊢
    · cases ht
    · exact s.skipIf_advance_pc beq_iff_eq
  | sknpVx x =>
    obtain rfl := Host.Outcome.next.inj h
    rcases s.advance.keySkip_cases x false with ⟨-, hk⟩ | ⟨-, hk⟩ <;> rw [hk] at ht ⊢
    · cases ht
    · have hc : (s.key (s.reg x).toNat == false) = true ↔ ¬ s.key (s.reg x).toNat = true := by simp
      refine (s.skipIf_advance_pc hc).trans ?_
      rw [ite_not]
      rfl
  | seVxKk x kk =>
    obtain rfl := Host.Outcome.next.inj h
    exact s.skipIf_advance_pc beq_iff_eq
  | sneVxKk x kk =>
    obtain rfl := Host.Outcome.next.inj h
    rw [s.skipIf_advance_pc bne_iff_ne, ite_not]
    rfl
  | seVxVy x y =>
    obtain rfl := Host.Outcome.next.inj h
    exact s.skipIf_advance_pc beq_iff_eq
  | sneVxVy x y =>
    obtain rfl := Host.Outcome.next.inj h
    rw [s.skipIf_advance_pc bne_iff_ne, ite_not]
    rfl
  | _ =>
    obtain rfl := Host.Outcome.next.inj h
    rfl

/-- Settles O12: a raise takes the advance back, and otherwise the tick leaves the handler's `pc` alone. -/
theorem everyInstructionLeavesPcWhereTheRuleSays : Obligations.EveryInstructionLeavesPcWhereTheRuleSays := by
  rintro s t i ⟨hv, hp, rfl⟩ h
  rcases step_fetch_cases hv hp h with ⟨c, info, -, -, rfl⟩ | ⟨u, hu, hf, rfl⟩
  · exact ⟨fun ht => (by cases ht), fun _ => rfl⟩
  · have hvu : u.fault.valid = false := hf ▸ hv
    exact ⟨fun _ => u.tick_pc.trans (exec_advance_pc hu hvu), fun ht => absurd ht (Bool.eq_false_iff.mp hvu)⟩

/-! ### Faults, 60_exceptions.md R251, R252 -/

/-- A fetched instruction whose condition holds records its fault, and the rest of the cycle is undone. -/
theorem step_of_raises {s : State} {i : Instr} {c : FaultCause} {info : Word} (hf : fetches s i)
    (hr : Raises s i c info) : step s = .next (recorded s c info) := by
  obtain ⟨hv, hp, rfl⟩ := hf
  have he := exec_of_raises (hr.congr (s' := s.advance) rfl rfl rfl rfl)
  rw [step_of_fetch hv hp he, State.endCycle_of_valid rfl, State.raise_advance]
  rfl

/-- The converse: a cycle that records a fault failed to fetch, or fetched an instruction whose condition held. -/
theorem step_faults_cases {s t : State} (hv : s.fault.valid = false) (h : step s = .next t)
    (ht : t.fault.valid = true) :
    (0x0FFE < s.pc.toNat ∧ t = recorded s .fetchOutOfRange s.pc) ∨
    ∃ i c info, fetches s i ∧ Raises s i c info ∧ t = recorded s c info := by
  by_cases hp : s.pc.toNat ≤ 0x0FFE
  · rcases step_fetch_cases hv hp h with ⟨c, info, -, he, rfl⟩ | ⟨u, -, hf, rfl⟩
    · obtain ⟨c', info', hr, heq⟩ := (exec_effect he).raises hv rfl
      obtain ⟨rfl, rfl⟩ : c = c' ∧ info = info' := by
        have hfault := congrArg State.fault heq
        simp only [State.raise_fault, FaultRegister.mk.injEq] at hfault
        exact ⟨hfault.2.1, hfault.2.2.2⟩
      exact .inr ⟨_, c, info, ⟨hv, hp, rfl⟩, hr.congr rfl rfl rfl rfl, rfl⟩
    · exact absurd ht (by simp [hf, hv])
  · rw [step_of_unfetchable hv (by omega)] at h
    exact .inl ⟨by omega, (Host.Outcome.next.inj h).symm⟩

/-- The statements' range condition is the model's check (20_memory.md R67). -/
theorem bytesInMemory_iff {s : State} {len : Nat} : bytesInMemory s len ↔ s.inRange len = true := by
  rw [State.inRange_iff, bytesInMemory]
  omega

theorem not_bytesInMemory_iff {s : State} {len : Nat} : ¬ bytesInMemory s len ↔ s.inRange len = false := by
  rw [bytesInMemory_iff, Bool.not_eq_true]

/-- Settles O39: the fetch fault, and each raising condition by `step_of_raises`. -/
theorem faultsAreRecordedAndTheCycleUndone : Obligations.FaultsAreRecordedAndTheCycleUndone := by
  intro s
  refine ⟨step_of_unfetchable, fun nnn hf h => step_of_raises hf (.call nnn h), fun hf h => step_of_raises hf (.ret h),
    fun x y n hf h => ?_, fun x hf h => ?_, fun x hf h => ?_, fun x hf h => ?_, fun x hf h => ?_⟩
  · exact ⟨_, s.lowestOutside_toNat, step_of_raises hf (.drawRead x y n (not_bytesInMemory_iff.mp h))⟩
  · exact ⟨_, s.lowestOutside_toNat, step_of_raises hf (.blockLoad x (not_bytesInMemory_iff.mp h))⟩
  · exact ⟨_, s.lowestOutside_toNat, step_of_raises hf (.bcdStore x (not_bytesInMemory_iff.mp h))⟩
  · exact ⟨_, s.lowestOutside_toNat, step_of_raises hf (.blockStore x (not_bytesInMemory_iff.mp h))⟩
  · refine ⟨_, zextByte_toNat _, hf.elim (fun hf => ?_) fun hf => ?_⟩
    · exact step_of_raises hf (.skp x h)
    · exact step_of_raises hf (.sknp x h)

/-- A cell of a draw, as the statements say it (44_display.md R212, R213). -/
theorem mem_drawCells_iff {s : State} {x y : RegIx} {n k : Nat} : k ∈ s.drawCells x y n ↔ spriteCell s x y n k :=
  State.mem_drawCells

/-- Settles O40: the conditions of `Raises` are the disjuncts. -/
theorem noOtherConditionFaults : Obligations.NoOtherConditionFaults := by
  intro s t hv h ht
  rcases step_faults_cases hv h ht with ⟨hp, rfl⟩ | ⟨i, c, info, hf, hr, rfl⟩
  · exact ⟨rfl, .inl ⟨rfl, hp⟩⟩
  · refine ⟨rfl, .inr ?_⟩
    cases hr with
    | call nnn hc => exact .inl ⟨rfl, hc, nnn, hf⟩
    | ret hc => exact .inr (.inl ⟨rfl, hc, hf⟩)
    | blockLoad x hc => exact .inr (.inr (.inl ⟨rfl, x, hf, not_bytesInMemory_iff.mpr hc⟩))
    | drawRead x y n hc => exact .inr (.inr (.inr (.inl ⟨rfl, x, y, n, hf, not_bytesInMemory_iff.mpr hc⟩)))
    | bcdStore x hc => exact .inr (.inr (.inr (.inr (.inl ⟨rfl, x, hf, not_bytesInMemory_iff.mpr hc⟩))))
    | blockStore x hc => exact .inr (.inr (.inr (.inr (.inr (.inl ⟨rfl, x, hf, not_bytesInMemory_iff.mpr hc⟩)))))
    | skp x hc => exact .inr (.inr (.inr (.inr (.inr (.inr (.inl ⟨rfl, x, .inl hf, hc⟩))))))
    | sknp x hc => exact .inr (.inr (.inr (.inr (.inr (.inr (.inl ⟨rfl, x, .inr hf, hc⟩))))))
    | drawPast x y n k hin hk hpast _ =>
      exact .inr (.inr (.inr (.inr (.inr (.inr (.inr
        ⟨rfl, x, y, n, hf, bytesInMemory_iff.mpr hin, k, mem_drawCells_iff.mp hk, hpast⟩))))))

/-- Settles O31: the first set bit past the last cell in scan order is the first such cell, since cells rise along the
scan. -/
theorem drawPastTheLastCellFaults : Obligations.DrawPastTheLastCellFaults := by
  intro x y n s r c hf hin hr hc hbit hpast hbefore
  have hk : cellOf s x y r c ∈ s.drawCells x y n.val := mem_drawCells_iff.mpr ⟨r, c, hr, hc, hbit, rfl⟩
  have hfirst : ∀ j ∈ s.drawCells x y n.val, j < cellOf s x y r c → j ≤ 2047 := by
    intro j hj hlt
    obtain ⟨p, q, -, hq, hpq, rfl⟩ := mem_drawCells_iff.mp hj
    refine hbefore p q ?_ hpq
    rw [cellOf, cellOf] at hlt
    omega
  refine ⟨BitVec.ofNat 16 (cellOf s x y r c), ?_,
    step_of_raises hf (.drawPast x y n _ (bytesInMemory_iff.mp hin) hk hpast hfirst)⟩
  have hle := State.drawCells_le hk
  rw [BitVec.toNat_ofNat]
  exact Nat.mod_eq_of_lt (by omega)

end Sys2Proof.Machine
end

section
/-! PROOFS. What no handler reads: the sound timer (10_state.md R30), stack slots at or above `sp` (R28), and, but for
three instructions, the key flags (R31). One state with these parts replaced serves all three statements. -/

namespace Sys2Proof.Machine

open Sys2Proof.Statements

/-- The state with another sound timer, other key flags and another stack. -/
def State.overlay (s : State) (v : Byte) (k : BitVec 16) (stk : Vector Word 16) : State :=
  { s with st := v, keys := k, stack := stk }

/-- The slots in use with `sp` at `p` are the same in both stacks. -/
def agreeBelow (p : Fin 17) (a b : Vector Word 16) : Prop := ∀ j : Fin 16, j.val < p.val → a[j.val] = b[j.val]

/-- The instructions that read the key flags (10_state.md R31). -/
def readsKeys (i : Instr) : Prop := (∃ x, i = .skpVx x) ∨ (∃ x, i = .sknpVx x) ∨ ∃ x, i = .ldVxK x

/-- The answer `r`, given from `s` with sound timer `v`, key flags `k` and stack `stk` instead of its own, is `t` with
such parts replaced: the sound timer and the stack only if they were different before, and no slot in use. -/
def Follows (s t : State) (v : Byte) (k : BitVec 16) (stk : Vector Word 16) (r : Result) : Prop :=
  ∃ v' stk', r = .next (t.overlay v' k stk') ∧ (v = s.st → v' = t.st) ∧ (stk = s.stack → stk' = t.stack) ∧
    agreeBelow t.sp stk' t.stack

section Overlay

variable {s t : State} {v : Byte} {k : BitVec 16} {stk : Vector Word 16}

/-- Nothing is read where the answer carries the same parts over. -/
theorem Follows.of_kept {r : Result} (hr : r = .next (t.overlay v k stk)) (hst : t.st = s.st)
    (hstack : t.stack = s.stack) (hsp : t.sp = s.sp) (hagree : agreeBelow s.sp stk s.stack) :
    Follows s t v k stk r :=
  ⟨v, stk, hr, fun h => h.trans hst.symm, fun h => h.trans hstack.symm, hstack ▸ hsp ▸ hagree⟩

theorem State.drawCells_overlay (s : State) (x y : RegIx) (n : Nat) :
    (s.overlay v k stk).drawCells x y n = s.drawCells x y n := rfl

theorem State.loadedRegs_overlay (s : State) (n : Nat) : (s.overlay v k stk).loadedRegs n = s.loadedRegs n := rfl

theorem State.skipIf_overlay (s : State) (c : Bool) : (s.overlay v k stk).skipIf c = (s.skipIf c).overlay v k stk := by
  cases c <;> rfl

theorem Follows.skipIf (c : Bool) (hagree : agreeBelow s.sp stk s.stack) :
    Follows s (s.skipIf c) v k stk (.next ((s.overlay v k stk).skipIf c)) :=
  .of_kept (congrArg Host.Outcome.next (s.skipIf_overlay c)) (s.skipIf_st c) (s.skipIf_stack c) (s.skipIf_sp c) hagree

/-- A key skip whose index names a key. -/
theorem Follows.keySkip {x : RegIx} (pressed : Bool) (hx : (s.reg x).toNat ≤ 15) (hk : k = s.keys)
    (hagree : agreeBelow s.sp stk s.stack) :
    Follows s (s.keySkip x pressed) v k stk (.next ((s.overlay v k stk).keySkip x pressed)) := by
  subst hk
  have hx' : ¬ 15 < (s.reg x).toNat := by omega
  have h1 : s.keySkip x pressed = s.skipIf (s.key (s.reg x).toNat == pressed) := if_neg hx'
  have h2 : (s.overlay v s.keys stk).keySkip x pressed =
      (s.overlay v s.keys stk).skipIf (s.key (s.reg x).toNat == pressed) := if_neg hx'
  rw [h1, h2]
  exact .skipIf _ hagree

/-- A call with a free slot writes the slot that comes into use. -/
theorem agreeBelow_set {a b : Vector Word 16} {p : Fin 17} (h : agreeBelow p a b) (hp : p.val < 16) (w : Word) :
    agreeBelow ⟨p.val + 1, Nat.succ_lt_succ hp⟩ (a.set p.val w) (b.set p.val w) := by
  intro j hj
  have hj' : j.val < p.val + 1 := hj
  rw [Vector.getElem_set, Vector.getElem_set]
  split
  · rfl
  · exact h j (by omega)

/-- What a handler answers with the sound timer, the key flags and unused stack slots replaced: the key flags may
differ only for an instruction that does not read them. -/
theorem exec_overlay {i : Instr} (h : exec i s = .next t) (hkeys : k = s.keys ∨ ¬ readsKeys i)
    (hagree : agreeBelow s.sp stk s.stack) : Follows s t v k stk (exec i (s.overlay v k stk)) := by
  by_cases hraise : ∃ c info, Raises s i c info
  · obtain ⟨c, info, hr⟩ := hraise
    rw [exec_of_raises hr] at h
    obtain rfl := Host.Outcome.next.inj h
    exact .of_kept (exec_of_raises (hr.congr rfl rfl rfl rfl)) rfl rfl rfl hagree
  cases i with
  | ret =>
    rcases execRet_cases h with ⟨h0, -⟩ | ⟨hp, rfl⟩
    · exact absurd ⟨_, _, .ret h0⟩ hraise
    · have hslot := hagree ⟨s.sp.val - 1, by omega⟩ (by show s.sp.val - 1 < _; omega)
      refine ⟨v, stk, ?_, id, id, fun j hj => hagree j (Nat.lt_of_lt_of_le hj (Nat.sub_le _ _))⟩
      refine (execRet_of_pos (s := s.overlay v k stk) hp).trans ?_
      rw [← hslot]
      rfl
  | callNnn nnn =>
    rcases execCallNnn_cases h with ⟨h16, -⟩ | ⟨hp, rfl⟩
    · exact absurd ⟨_, _, .call nnn h16⟩ hraise
    · exact ⟨v, stk.set s.sp.val s.pc, execCallNnn_of_lt (s := s.overlay v k stk) hp, id,
        fun hstk => (by subst hstk; rfl), agreeBelow_set hagree hp s.pc⟩
  | drwVxVyN x y n =>
    rcases execDrwVxVyN_cases h with ⟨hr, -⟩ | ⟨hr, j, hj, hpast, -⟩ | ⟨hr, hin, f, rfl, hf⟩
    · exact absurd ⟨_, _, .drawRead x y n hr⟩ hraise
    · obtain ⟨i, hi, hipast, hfirst⟩ := exists_first_past hj hpast
      exact absurd ⟨_, _, .drawPast x y n i hr hi hipast hfirst⟩ hraise
    · obtain ⟨g, hdraw, hg⟩ := execDrwVxVyN_drawn (s := s.overlay v k stk) hr hin
      rw [State.drawCells_overlay] at hdraw
      obtain rfl : g = f := Framebuffer.ext_lit fun c hc => (hg c hc).trans (hf c hc).symm
      exact .of_kept hdraw rfl rfl rfl hagree
  | ldBVx x =>
    rcases execLdBVx_cases h with ⟨hr, -⟩ | ⟨hr, rfl⟩
    · exact absurd ⟨_, _, .bcdStore x hr⟩ hraise
    · exact .of_kept (exec_ldBVx (s := s.overlay v k stk) hr) rfl rfl rfl hagree
  | ldMemVx x =>
    rcases execLdMemVx_cases h with ⟨hr, -⟩ | ⟨hr, rfl⟩
    · exact absurd ⟨_, _, .blockStore x hr⟩ hraise
    · exact .of_kept (exec_ldMemVx (s := s.overlay v k stk) hr) rfl rfl rfl hagree
  | ldVxMem x =>
    rcases execLdVxMem_cases h with ⟨hr, -⟩ | ⟨hr, rfl⟩
    · exact absurd ⟨_, _, .blockLoad x hr⟩ hraise
    · have hload := exec_ldVxMem (s := s.overlay v k stk) hr
      rw [State.loadedRegs_overlay] at hload
      generalize s.loadedRegs x.val = loaded at hload ⊢
      exact .of_kept hload rfl rfl rfl hagree
  | ldVxK x =>
    obtain rfl := hkeys.resolve_right fun hn => hn (.inr (.inr ⟨x, rfl⟩))
    rcases execLdVxK_cases h with ⟨j, hj, hdown, hleast, rfl⟩ | ⟨hnone, rfl⟩
    · exact .of_kept (exec_ldVxK_of_least_key x (s := s.overlay v s.keys stk) hj hdown hleast) rfl rfl rfl hagree
    · exact .of_kept (exec_ldVxK_of_no_key x (s := s.overlay v s.keys stk) hnone) rfl rfl rfl hagree
  | skpVx x =>
    obtain rfl := Host.Outcome.next.inj h
    have hx : (s.reg x).toNat ≤ 15 := Nat.le_of_not_lt fun hx => hraise ⟨_, _, .skp x hx⟩
    exact .keySkip true hx (hkeys.resolve_right fun hn => hn (.inl ⟨x, rfl⟩)) hagree
  | sknpVx x =>
    obtain rfl := Host.Outcome.next.inj h
    have hx : (s.reg x).toNat ≤ 15 := Nat.le_of_not_lt fun hx => hraise ⟨_, _, .sknp x hx⟩
    exact .keySkip false hx (hkeys.resolve_right fun hn => hn (.inr (.inl ⟨x, rfl⟩))) hagree
  | seVxKk | sneVxKk | seVxVy | sneVxVy =>
    obtain rfl := Host.Outcome.next.inj h
    exact .skipIf _ hagree
  | ldStVx x =>
    obtain rfl := Host.Outcome.next.inj h
    exact ⟨s.reg x, stk, rfl, fun _ => rfl, id, hagree⟩
  | _ =>
    obtain rfl := Host.Outcome.next.inj h
    exact .of_kept rfl rfl rfl rfl hagree

/-- The same for a whole cycle. -/
theorem step_overlay (h : step s = .next t) (hkeys : k = s.keys ∨ ¬ readsKeys (decodeWord s.fetchWord))
    (hagree : agreeBelow s.sp stk s.stack) : Follows s t v k stk (step (s.overlay v k stk)) := by
  rcases step_cases h with ⟨hv, rfl⟩ | ⟨hv, hp, rfl⟩ | ⟨hv, hp, u, hu, rfl⟩
  · exact .of_kept (step_of_halted hv) rfl rfl rfl hagree
  · exact .of_kept (step_of_unfetchable (s := s.overlay v k stk) hv hp) rfl rfl rfl hagree
  · obtain ⟨v', stk', hexec, hst, hstack, hslots⟩ := exec_overlay (v := v) hu hkeys hagree
    have hstep : step (s.overlay v k stk) = .next (u.overlay v' k stk').endCycle :=
      step_of_fetch (s := s.overlay v k stk) hv hp hexec
    cases hf : u.fault.valid with
    | true =>
      rw [hstep, State.endCycle_of_valid (t := u.overlay v' k stk') hf, State.endCycle_of_valid hf]
      exact ⟨v', stk', rfl, hst, hstack, hslots⟩
    | false =>
      rw [hstep, State.endCycle_of_not_valid (t := u.overlay v' k stk') hf, State.endCycle_of_not_valid hf]
      exact ⟨tickTimer v', stk', rfl, fun hv => congrArg tickTimer (hst hv), hstack, hslots⟩

/-- No handler writes the key flags, and the rest of the cycle does not either. -/
theorem step_keys (h : step s = .next t) : t.keys = s.keys := by
  rcases step_cases h with ⟨-, rfl⟩ | ⟨-, -, rfl⟩ | ⟨hv, hp, u, hu, rfl⟩
  · rfl
  · rfl
  · obtain ⟨-, -, -, -, -, -, -, -, hkeys, -⟩ := handlersWriteOnlyWhatTheirRuleLists _ s.advance u hv hu
    rw [State.endCycle]
    split
    · exact hkeys
    · exact hkeys

end Overlay

/-- Settles O51: an overlay of the sound timer alone. -/
theorem soundTimerIsNeverRead : Obligations.SoundTimerIsNeverRead := by
  intro s t v h
  obtain ⟨w, stk, hstep, -, hstack, -⟩ := step_overlay (v := v) h (.inl rfl) (fun _ _ => rfl)
  refine ⟨w, hstep.trans ?_⟩
  rw [hstack rfl, ← step_keys h]
  rfl

/-- Settles O52: an overlay of the stack alone. -/
theorem unusedStackSlotsAreNeverRead : Obligations.UnusedStackSlotsAreNeverRead := by
  intro s t other hagree h
  obtain ⟨w, stk, hstep, hst, -, hslots⟩ := step_overlay (v := s.st) h (.inl rfl) hagree
  refine ⟨stk, hstep.trans ?_, hslots⟩
  rw [hst rfl, ← step_keys h]
  rfl

/-- Settles O53: an overlay of the key flags alone, and `step_keys`. -/
theorem keysAreReadByThreeInstructionsOnly : Obligations.KeysAreReadByThreeInstructionsOnly := by
  refine ⟨fun s t k hne h => ?_, fun s t h => step_keys h⟩
  have hreads : ¬ readsKeys (decodeWord s.fetchWord) := by
    rintro (⟨x, hx⟩ | ⟨x, hx⟩ | ⟨x, hx⟩)
    · exact (hne x).1 hx
    · exact (hne x).2.1 hx
    · exact (hne x).2.2 hx
  obtain ⟨w, stk, hstep, hst, hstack, -⟩ := step_overlay (v := s.st) h (.inr hreads) (fun _ _ => rfl)
  refine hstep.trans ?_
  rw [hst rfl, hstack rfl]
  rfl

end Sys2Proof.Machine
end

section
/-! PROOFS. Calls and returns (41_control_flow.md R140, R142, R149). -/

namespace Sys2Proof.Machine

open Sys2Proof.Statements

/-- Settles O16: the handler's answer with a free slot, field by field. -/
theorem callPushesTheReturnAddress : Obligations.CallPushesTheReturnAddress := by
  intro nnn s h
  refine ⟨_, execCallNnn_of_lt h, zextAddr_toNat nnn, rfl, Vector.getElem_set_self h, fun k hk => ?_, rfl⟩
  exact Vector.getElem_set_ne h k.isLt (Ne.symm hk)

/-- Settles O17: the handler's answer with a slot in use. -/
theorem returnPopsTheReturnAddress : Obligations.ReturnPopsTheReturnAddress := by
  intro s h
  exact ⟨_, execRet_of_pos h, Nat.sub_add_cancel h, rfl, rfl⟩

/-! ### Nested calls and returns, R149 -/

theorem handlers_cons {i : Instr} {s t : State} (h : exec i s.advance = .next t) (is : List Instr) :
    handlers (i :: is) s = handlers is t := by
  have h' : exec i { s with pc := s.pc + 2 } = .next t := h
  rw [handlers, h']

theorem handlers_append (is js : List Instr) : ∀ s : State,
    handlers (is ++ js) s = (handlers is s).bind (handlers js) := by
  induction is with
  | nil => exact fun s => rfl
  | cons i is ih =>
    intro s
    obtain ⟨t, ht⟩ := exec_answers i s.advance
    rw [List.cons_append, handlers_cons ht, handlers_cons ht, ih]

/-- Calls and as many returns, with the slots that were in use before them unchanged: a call's return address stands in
its slot while the inner calls come and go, and its return takes it from there. -/
theorem handlers_calls_returns (targets : List Addr) : ∀ s : State, s.sp.val + targets.length ≤ 16 →
    ∃ t, handlers (targets.map .callNnn ++ List.replicate targets.length .ret) s = some t ∧ t.sp = s.sp ∧
      agreeBelow s.sp t.stack s.stack ∧ (targets ≠ [] → t.pc = s.pc + 2) ∧
      t = { s with pc := t.pc, stack := t.stack } := by
  induction targets with
  | nil => exact fun s _ => ⟨s, rfl, rfl, fun _ _ => rfl, fun h => absurd rfl h, rfl⟩
  | cons nnn targets ih =>
    intro s hfit
    rw [List.length_cons] at hfit
    have hfree : s.advance.sp.val < 16 := by show s.sp.val < 16; omega
    obtain ⟨c, hc, -, hcsp, hcslot, hcothers, hceq⟩ := callPushesTheReturnAddress nnn s.advance hfree
    have hcsp' : c.sp.val = s.sp.val + 1 := hcsp
    obtain ⟨u, hu, husp, hukeep, -, hueq⟩ := ih c (by omega)
    have hpos : 0 < u.advance.sp.val := by show 0 < u.sp.val; omega
    obtain ⟨t, ht, htsp, htpc, hteq⟩ := returnPopsTheReturnAddress u.advance hpos
    have hsp : t.sp = s.sp := by
      have htsp' : t.sp.val + 1 = u.sp.val := htsp
      apply Fin.ext
      omega
    have hstack : t.stack = u.stack := (congrArg State.stack hteq :)
    refine ⟨t, ?_, hsp, fun j hj => ?_, fun _ => ?_, ?_⟩
    · rw [List.map_cons, List.length_cons, List.replicate_succ', List.cons_append, handlers_cons hc,
        ← List.append_assoc, handlers_append, hu]
      exact handlers_cons ht []
    · rw [hstack, hukeep j (by omega)]
      exact hcothers j (Nat.ne_of_lt hj)
    · have htop : u.advance.sp.val - 1 = s.sp.val := by show u.sp.val - 1 = _; omega
      simp only [htop] at htpc
      exact htpc.trans ((hukeep ⟨s.sp.val, hfree⟩ (by show s.sp.val < _; omega)).trans hcslot)
    · rw [hsp, hueq, hceq] at hteq
      rw [hstack]
      exact hteq

/-- Settles O18: `handlers_calls_returns`, for a list with a first call. -/
theorem nestedCallsAndReturnsRestore : Obligations.NestedCallsAndReturnsRestore := by
  intro targets s hne hfit
  obtain ⟨t, ht, hsp, -, hpc, heq⟩ := handlers_calls_returns targets s hfit
  exact ⟨t, ht, hsp, hpc hne, heq⟩

end Sys2Proof.Machine
end

section
/-! PROOFS. Family 42 (42_alu.md): exclusive or, the five flag instructions and random-and (R165 to R173). -/

namespace Sys2Proof.Machine

open Sys2Proof.Statements

/-! ### The handlers -/

theorem exec_xorVxVy (x y : RegIx) (s : State) :
    exec (.xorVxVy x y) s = .next (s.setReg x (s.reg x ^^^ s.reg y)) := rfl

theorem exec_addVxVy (x y : RegIx) (s : State) : exec (.addVxVy x y) s =
    .next (s.flagThenResult (carryFlag (s.reg x) (s.reg y)) x (s.reg x + s.reg y)) := rfl

theorem exec_subVxVy (x y : RegIx) (s : State) : exec (.subVxVy x y) s =
    .next (s.flagThenResult (greaterFlag (s.reg x) (s.reg y)) x (s.reg x - s.reg y)) := rfl

theorem exec_subnVxVy (x y : RegIx) (s : State) : exec (.subnVxVy x y) s =
    .next (s.flagThenResult (greaterFlag (s.reg y) (s.reg x)) x (s.reg y - s.reg x)) := rfl

theorem exec_shrVx (x : RegIx) (s : State) :
    exec (.shrVx x) s = .next (s.flagThenResult (lowBit (s.reg x)) x (s.reg x >>> 1)) := rfl

theorem exec_shlVx (x : RegIx) (s : State) :
    exec (.shlVx x) s = .next (s.flagThenResult (highBit (s.reg x)) x (s.reg x <<< 1)) := rfl

theorem exec_rndVxKk (x : RegIx) (kk : Byte) (s : State) :
    exec (.rndVxKk x kk) s = .next (s.setReg x (Config.draw s.draws &&& kk)).useDraw := rfl

/-! ### Exclusive or and random, R165, R171 -/

/-- Settles O20: one `setReg` of the bitwise exclusive or. -/
theorem xorIsExclusiveOr : Obligations.XorIsExclusiveOr := by
  intro x y s
  refine ⟨_, _, exec_xorVxVy x y s, s.writesReg_setReg x _, fun k => BitVec.getLsbD_xor, ?_⟩
  rintro rfl
  exact BitVec.xor_self

/-- Settles O23: one `setReg` of the masked draw, and the draw used up. -/
theorem randomAndMasksTheDraw : Obligations.RandomAndMasksTheDraw := by
  intro x kk s
  obtain ⟨hreg, -⟩ := s.writesReg_setReg x (Config.draw s.draws &&& kk)
  exact ⟨_, _, exec_rndVxKk x kk s, hreg, fun k => BitVec.getLsbD_and, rfl⟩

/-! ### Flags and results in integers, R166 to R170, R172 -/

/-- The two writes of a flag instruction in integers (R173), for a flag bit and a result of the given values. -/
theorem State.writesFlagAndReg_flagThenResult (s : State) {c : Bool} {x : RegIx} {v : Byte} {flag n : Nat}
    (hc : (flagByte c).toNat = flag) (hv : v.toNat = n) : writesFlagAndReg s (s.flagThenResult c x v) flag x n := by
  refine ⟨fun z => ?_, rfl⟩
  rw [State.reg_flagThenResult]
  by_cases hx : z = x
  · rw [if_pos hx.symm, if_pos hx, hv]
  · rw [if_neg (Ne.symm hx), if_neg hx]
    by_cases hf : z = 0xF
    · rw [if_pos (show flagReg = z from hf.symm), if_pos hf, hc]
    · rw [if_neg (show ¬ flagReg = z from Ne.symm hf), if_neg hf]

theorem flagByte_decide_toNat (P : Prop) [Decidable P] : (flagByte (decide P)).toNat = if P then 1 else 0 := by
  by_cases hP : P <;> simp [flagByte, hP]

theorem sub_toNat (a b : Byte) : (a - b).toNat = (256 + a.toNat - b.toNat) % 256 := by
  have hb := b.isLt
  rw [BitVec.toNat_sub]
  congr 1
  omega

/-- The bit a right shift loses is the remainder. -/
theorem flagByte_lowBit_toNat (a : Byte) : (flagByte (lowBit a)).toNat = a.toNat % 2 := by
  decide +revert

/-- The bit a left shift loses is what does not fit. -/
theorem flagByte_highBit_toNat (a : Byte) : (flagByte (highBit a)).toNat = a.toNat / 128 := by
  decide +revert

theorem ushiftRight_one_toNat (a : Byte) : (a >>> 1).toNat = a.toNat / 2 := by
  rw [BitVec.toNat_ushiftRight, Nat.shiftRight_eq_div_pow, Nat.pow_one]

theorem shiftLeft_one_toNat (a : Byte) : (a <<< 1).toNat = 2 * a.toNat % 256 := by
  rw [BitVec.toNat_shiftLeft, Nat.shiftLeft_eq, Nat.pow_one, Nat.mul_comm]

/-- Settles O21: each handler is a `flagThenResult`, of a comparison and a difference or sum of the old operands. -/
theorem addAndSubtractSetFlagAndResult : Obligations.AddAndSubtractSetFlagAndResult := by
  rintro x y s a b rfl rfl
  refine ⟨⟨decodeWord_addVxVy x y, _, exec_addVxVy x y s, ?_⟩, ⟨decodeWord_subVxVy x y, _, exec_subVxVy x y s, ?_⟩,
    decodeWord_subnVxVy x y, _, exec_subnVxVy x y s, ?_⟩
  · exact s.writesFlagAndReg_flagThenResult (flagByte_decide_toNat _) (BitVec.toNat_add _ _)
  · exact s.writesFlagAndReg_flagThenResult (flagByte_decide_toNat _) (sub_toNat _ _)
  · exact s.writesFlagAndReg_flagThenResult (flagByte_decide_toNat _) (sub_toNat _ _)

/-- Settles O22: each handler is a `flagThenResult` of the bit shifted out and the shifted register. -/
theorem shiftsSetFlagAndResult : Obligations.ShiftsSetFlagAndResult := by
  rintro x g s a rfl
  refine ⟨⟨decodeWord_shrVx x g, _, exec_shrVx x s, ?_⟩, decodeWord_shlVx x g, _, exec_shlVx x s, ?_⟩
  · exact s.writesFlagAndReg_flagThenResult (flagByte_lowBit_toNat _) (ushiftRight_one_toNat _)
  · exact s.writesFlagAndReg_flagThenResult (flagByte_highBit_toNat _) (shiftLeft_one_toNat _)

end Sys2Proof.Machine
end

section
/-! PROOFS. Family 43 (43_index_memory.md): add-to-index, BCD-store, block-store and block-load (R191, R193 to R195),
and stored code (20_memory.md R73). -/

namespace Sys2Proof.Machine

open Sys2Proof.Statements

theorem exec_addIVx (x : RegIx) (s : State) :
    exec (.addIVx x) s = .next (s.setIndex (s.index + zextByte (s.reg x))) := rfl

/-- Settles O25: one `setIndex` of the 16-bit sum. -/
theorem addToIndexWraps : Obligations.AddToIndexWraps := by
  intro x s
  refine ⟨_, exec_addIVx x s, ?_, rfl⟩
  rw [State.setIndex_index, BitVec.toNat_add, zextByte_toNat]

/-! ### Bytes after a store -/

/-- Byte `k` of a run of bytes stored inside memory. -/
theorem Memory.read_writeBytes_at (m : Memory) {a k : Nat} {bs : List Byte} (h : a + bs.length ≤ 0x1000)
    (hk : k < bs.length) : (m.writeBytes a bs).read (a + k) = bs[k] := by
  rw [Memory.read_writeBytes m a bs h, dif_pos ⟨by omega, by omega⟩]
  congr 1
  omega

/-- What a block-store leaves at `I + k` (R194). -/
theorem read_blockStore {s : State} {x : Fin 16} (h : s.inRange x.val = true) {i : RegIx} (hi : i < x) :
    (s.mem.writeBytes (s.effAddr 0) (s.firstRegs x.val)).read (s.effAddr i.val) = s.reg i := by
  have hi' : i.val < x.val := hi
  have hfit : s.effAddr 0 + (s.firstRegs x.val).length ≤ 0x1000 := by
    rw [State.firstRegs_length]
    rcases (s.inRange_iff x.val).mp h with h0 | hle
    · omega
    · exact hle
  have hread := s.mem.read_writeBytes_at hfit (k := i.val) (by simpa using hi')
  rw [State.firstRegs_getElem _ _ _ _ i.isLt] at hread
  exact hread

theorem bcdDigits_getElem_toNat (v : Byte) {k : Nat} (hk : k < 3) : ((bcdDigits v)[k]'hk).toNat =
    if k = 0 then v.toNat / 100 else if k = 1 then v.toNat / 10 % 10 else v.toNat % 10 := by
  have hdigits := bcdDigits_toNat v
  simp only [bcdDigits, List.map_cons, List.map_nil, List.cons.injEq, and_true] at hdigits
  obtain ⟨h0, h1, h2⟩ := hdigits
  interval_cases k
  · exact h0
  · exact h1
  · exact h2

/-- What a BCD-store leaves at `I + k` (R193). -/
theorem read_bcdStore {s : State} {x : RegIx} (h : s.inRange 3 = true) {k : Nat} (hk : k < 3) :
    ((s.mem.writeBytes (s.effAddr 0) (bcdDigits (s.reg x))).read (s.effAddr k)).toNat =
      if k = 0 then (s.reg x).toNat / 100 else if k = 1 then (s.reg x).toNat / 10 % 10 else (s.reg x).toNat % 10 := by
  have hfit : s.effAddr 0 + (bcdDigits (s.reg x)).length ≤ 0x1000 := by
    rcases (s.inRange_iff 3).mp h with h0 | hle
    · omega
    · exact hle
  rw [← bcdDigits_getElem_toNat _ hk]
  exact congrArg BitVec.toNat (s.mem.read_writeBytes_at hfit hk)

/-- Settles O26: the three digits are the run of bytes stored at `I`. -/
theorem bcdStoreWritesThreeDigits : Obligations.BcdStoreWritesThreeDigits := by
  intro x s h
  have hr : s.inRange 3 = true := (s.inRange_iff 3).mpr (.inr (by rw [State.effAddr] at h; omega))
  refine ⟨_, exec_ldBVx hr, read_bcdStore hr (by omega), read_bcdStore hr (by omega), read_bcdStore hr (by omega),
    fun a ha => ?_, rfl⟩
  refine Memory.read_writeBytes_outside _ _ _ _ (ha.imp id fun h => ?_)
  rw [bcdDigits_length]
  exact h

/-- Settles O27: the first X registers are the run of bytes stored at `I`. -/
theorem blockStoreWritesTheFirstRegisters : Obligations.BlockStoreWritesTheFirstRegisters := by
  intro x s h
  have hr := bytesInMemory_iff.mp h
  refine ⟨_, exec_ldMemVx hr, fun i hi => read_blockStore hr hi, fun a ha => ?_, rfl⟩
  refine Memory.read_writeBytes_outside _ _ _ _ (ha.imp id fun h => ?_)
  rw [State.firstRegs_length]
  exact h

/-- Settles O28: one `setRegs` of the loaded registers. -/
theorem blockLoadReadsTheFirstRegisters : Obligations.BlockLoadReadsTheFirstRegisters := by
  intro x s h
  exact ⟨_, exec_ldVxMem (bytesInMemory_iff.mp h), fun i => s.loadedRegs_getElem x.val i, rfl⟩

/-! ### Stored code, 20_memory.md R73 -/

/-- Each byte of the next word to fetch is the byte of memory at its address. -/
theorem fetchedByte_eq (t : State) {j : Nat} (hj : j < 2) : fetchedByte t j = (t.mem.read (t.pc.toNat + j)).toNat := by
  have hlo := (t.mem.read (t.pc.toNat + 1)).isLt
  rw [fetchedByte, State.fetchWord, wordOfBytes_toNat]
  have hj' : j = 0 ∨ j = 1 := by omega
  rcases hj' with rfl | rfl
  · rw [if_pos rfl]
    show _ = (t.mem.read t.pc.toNat).toNat
    omega
  · rw [if_neg (by decide)]
    omega

/-- Settles O13: a store changes memory alone, so the next word is read from what it stored. -/
theorem storedCodeIsFetchedNext : Obligations.StoredCodeIsFetchedNext := by
  intro s t x k j hp h ht hj hk
  have haddr : (s.pc + 2).toNat + j = s.effAddr k := by
    rw [State.effAddr, hk, BitVec.toNat_add]
    show (_ + 2) % 65536 + j = _
    omega
  rw [fetchedByte_eq t hj]
  refine ⟨?_, ?_⟩
  · rintro ⟨hv, -, hi⟩ i hix rfl
    obtain ⟨-, u, hu, rfl⟩ := step_unfaulted hv h ht
    rw [hi] at hu
    rcases execLdMemVx_cases hu with ⟨-, rfl⟩ | ⟨hr, rfl⟩
    · cases ht
    · exact congrArg BitVec.toNat ((congrArg _ haddr).trans (read_blockStore (s := s.advance) hr hix))
  · rintro ⟨hv, -, hi⟩ hk3
    obtain ⟨-, u, hu, rfl⟩ := step_unfaulted hv h ht
    rw [hi] at hu
    rcases execLdBVx_cases hu with ⟨-, rfl⟩ | ⟨hr, rfl⟩
    · cases ht
    · exact (congrArg (fun a => BitVec.toNat (Memory.read _ a)) haddr).trans (read_bcdStore (s := s.advance) hr hk3)

end Sys2Proof.Machine
end

section
/-! PROOFS. Family 44 (44_display.md): clear-display and draw (R210 to R215); and the key skips of family 45
(45_keypad_timers.md R230, R231). -/

namespace Sys2Proof.Machine

open Sys2Proof.Statements

theorem exec_cls (s : State) : exec .cls s = .next (s.setFb 0) := rfl

/-- Settles O29: the framebuffer is all zero bits. -/
theorem clearDisplayUnlightsEveryCell : Obligations.ClearDisplayUnlightsEveryCell := by
  intro s
  exact ⟨_, exec_cls s, fun c _ => BitVec.getLsbD_zero, rfl⟩

/-! ### Draw, R211 to R215 -/

/-- The collision flag as a value is 1 exactly when it is set. -/
theorem flagByte_eq_one (c : Bool) : flagByte c = 1 ↔ c = true := by
  cases c <;> decide

/-- A draw that completes, in the statements' words: what it leaves in the framebuffer and in register 0xF. -/
theorem exec_draw {x y : RegIx} {n : Fin 16} {s : State} (hr : s.inRange n.val = true)
    (hcells : ∀ k, spriteCell s x y n.val k → k ≤ 2047) :
    ∃ (f : Framebuffer) (c : Bool), exec (.drwVxVyN x y n) s = .next ((s.setFb f).setReg flagReg (flagByte c)) ∧
      (∀ k, k < 2048 → spriteCell s x y n.val k → f.lit k = !s.fb.lit k) ∧
      (∀ k, k < 2048 → ¬ spriteCell s x y n.val k → f.lit k = s.fb.lit k) ∧
      (c = true ↔ ∃ k, spriteCell s x y n.val k ∧ s.fb.lit k = true) := by
  obtain ⟨f, hexec, hf⟩ := execDrwVxVyN_drawn hr fun k hk => hcells k (mem_drawCells_iff.mp hk)
  refine ⟨f, _, hexec, fun k hk hc => ?_, fun k hk hc => ?_, ?_⟩
  · rw [hf k hk, if_pos (mem_drawCells_iff.mpr hc)]
  · rw [hf k hk, if_neg fun h => hc (mem_drawCells_iff.mp h)]
  · simp only [List.any_eq_true, mem_drawCells_iff]

/-- Settles O30: `exec_draw`, and the flag written to register 0xF alone. -/
theorem drawTogglesTheCellsOfSetBits : Obligations.DrawTogglesTheCellsOfSetBits := by
  intro x y n s hin hcells
  obtain ⟨f, c, hexec, htoggled, hkept, hc⟩ := exec_draw (bytesInMemory_iff.mp hin) hcells
  refine ⟨_, hexec, htoggled, hkept, fun hlit => ?_, fun hunlit => ?_, fun z hz => ?_, rfl⟩
  · exact (State.reg_setReg_same _ flagReg _).trans ((flagByte_eq_one c).mpr (hc.mpr hlit))
  · have hfalse : c = false := by
      rw [Bool.eq_false_iff]
      intro htrue
      obtain ⟨k, hk, hlit⟩ := hc.mp htrue
      rw [hunlit k hk] at hlit
      cases hlit
    rw [hfalse]
    exact State.reg_setReg_same _ flagReg _
  · exact State.reg_setReg_other _ (Ne.symm hz) _

/-- The cells of a draw depend on memory, `I` and the two coordinates. -/
theorem spriteCell_congr {s u : State} {x y : RegIx} {n k : Nat} (hmem : u.mem = s.mem) (hindex : u.index = s.index)
    (hx : u.reg x = s.reg x) (hy : u.reg y = s.reg y) : spriteCell u x y n k ↔ spriteCell s x y n k := by
  simp only [spriteCell, spriteBit, cellOf, hmem, hindex, hx, hy]

/-- Settles O32: both draws toggle the same cells, and a cell toggled twice is as before; the second draw collides where
the first lit an unlit cell. -/
theorem drawingTwiceRestoresTheFramebuffer : Obligations.DrawingTwiceRestoresTheFramebuffer := by
  intro x y n s t u hv h ht hfb hmem hindex hx hy
  rcases execDrwVxVyN_cases h with ⟨-, rfl⟩ | ⟨-, k, -, -, rfl⟩ | ⟨hr, hin, -⟩
  · cases ht
  · cases ht
  have hsame : ∀ k, spriteCell u x y n.val k ↔ spriteCell s x y n.val k := fun k => spriteCell_congr hmem hindex hx hy
  have hcells : ∀ k, spriteCell s x y n.val k → k ≤ 2047 := fun k hk => hin k (mem_drawCells_iff.mpr hk)
  have hru : u.inRange n.val = true := by rw [State.inRange_iff, hindex, ← State.inRange_iff, hr]
  obtain ⟨f, c, hexec, hf, hfkept, -⟩ := exec_draw hr hcells
  obtain ⟨g, d, hexec', hg, hgkept, hd⟩ := exec_draw hru fun k hk => hcells k ((hsame k).mp hk)
  obtain rfl : t = (s.setFb f).setReg flagReg (flagByte c) := Host.Outcome.next.inj (h.symm.trans hexec)
  have hufb : u.fb = f := hfb
  refine ⟨_, hexec', Framebuffer.ext_lit fun k hk => ?_, rfl, ?_⟩
  · show g.lit k = s.fb.lit k
    by_cases hc : spriteCell s x y n.val k
    · rw [hg k hk ((hsame k).mpr hc), hufb, hf k hk hc, Bool.not_not]
    · rw [hgkept k hk fun h => hc ((hsame k).mp h), hufb, hfkept k hk hc]
  · refine (Iff.of_eq (congrArg (· = 1) (State.reg_setReg_same _ flagReg _))).trans
      ((flagByte_eq_one d).trans (hd.trans (exists_congr fun k => ?_)))
    rw [hsame k, and_congr_right_iff]
    intro hc
    rw [hufb, hf k (Nat.lt_succ_of_le (hcells k hc)) hc, Bool.not_eq_true']

/-! ### Key skips, R230, R231 -/

/-- A key skip with an index that names a key, for the condition `P` it tests. -/
theorem State.keySkip_of_le {s : State} {x : RegIx} {pressed : Bool} {P : Prop} [Decidable P]
    (hx : (s.reg x).toNat ≤ 15) (hP : (s.key (s.reg x).toNat == pressed) = true ↔ P) :
    s.keySkip x pressed = { s with pc := (s.keySkip x pressed).pc } ∧
      (s.keySkip x pressed).pc.toNat = if P then (s.pc.toNat + 2) % 65536 else s.pc.toNat := by
  rcases s.keySkip_cases x pressed with ⟨hlt, -⟩ | ⟨-, hk⟩
  · omega
  · rw [hk]
    exact ⟨s.skipIf_frame _, s.skipIf_pc_toNat hP⟩

/-- Settles O35: both skips by `keySkip_of_le`, the second for the negated condition. -/
theorem keySkipsTestTheirKey : Obligations.KeySkipsTestTheirKey := by
  intro x s hx
  obtain ⟨hframe, hpc⟩ := State.keySkip_of_le (pressed := true) hx beq_iff_eq
  obtain ⟨hframe', hpc'⟩ := State.keySkip_of_le (P := ¬ s.key (s.reg x).toNat = true) (pressed := false) hx (by simp)
  rw [ite_not] at hpc'
  exact ⟨⟨_, rfl, hframe, hpc⟩, _, rfl, hframe', hpc'⟩

end Sys2Proof.Machine
end

section
/-! PROOFS. The host's side (10_state.md R39, R40) and reset (R41, 70_reset_and_hazards.md R290, R293). -/

namespace Sys2Proof.Machine

open Sys2Proof.Statements

/-! ### Ports, R32, R33, R35 -/

/-- Settles O33: the lit value is all ones. -/
theorem readPortShowsLitOrZero : Obligations.ReadPortShowsLitOrZero := by
  intro s c
  rw [State.readCell, Framebuffer.lit]
  split
  · exact BitVec.toNat_allOnes
  · exact BitVec.toNat_zero

/-- Settles O34: the port's and the codes' definitions. -/
theorem faultPortShowsTheFaultRegister : Obligations.FaultPortShowsTheFaultRegister :=
  ⟨fun _ => rfl, rfl, rfl, rfl, rfl, rfl, rfl, rfl, rfl⟩

/-! ### Host moves, R40 -/

/-- Settles O47: a loader write by the law of memory; the other moves as they are defined. -/
theorem hostMovesTouchOnlyTheirPart : Obligations.HostMovesTouchOnlyTheirPart := by
  intro s
  refine ⟨fun a v => ⟨_, rfl, rfl, fun b => ?_⟩, fun k => rfl, fun c => rfl, rfl, rfl⟩
  have ha := a.isLt
  exact (Memory.read_write s.mem (by omega) v b).trans (if_congr eq_comm rfl rfl)

/-- Settles O48: the image is a run of bytes inside memory (20_memory.md R76, R79). -/
theorem loaderPlacesTheImage : Obligations.LoaderPlacesTheImage := by
  intro s image hlen
  exact ⟨fun k hk => Memory.read_writeBytes_at s.mem (by omega) hk,
    fun a ha => Memory.read_writeBytes_outside s.mem 0x200 image a ha, rfl⟩

/-! ### Reset, R41, R290 -/

/-- After reset every byte past the font is zero, those before it too (R41). -/
theorem Memory.initial_outside_font {a : Nat} (h : a < 0x50 ∨ 0xA0 ≤ a) : Memory.initial a = 0 := by
  have hfont : glyphs.flatten.length = 80 := by decide
  rw [Memory.initial]
  split
  · rfl
  · exact List.getD_eq_default _ _ (by omega)

/-- Settles O42: reset's fields. -/
theorem resetStateIsAsTheTableSays : Obligations.ResetStateIsAsTheTableSays :=
  ⟨rfl, fun x => Vector.getElem_replicate x.isLt, rfl, rfl, fun k => Vector.getElem_replicate k.isLt, rfl, rfl, rfl,
    fun _ => BitVec.getLsbD_zero, fun _ ha => Memory.initial_outside_font ha, rfl, rfl⟩

/-- Settles O43: the 80 closed bytes. -/
theorem fontBytesAfterReset : Obligations.FontBytesAfterReset := by
  unfold Obligations.FontBytesAfterReset
  decide

/-! ### A run from reset with no image, R293 -/

/-- Reset's state after `n` cycles of clear-display. -/
def clearing (n : Nat) : State := { State.reset with pc := BitVec.ofNat 16 (0x200 + 2 * n) }

theorem clearing_pc_toNat {n : Nat} (h : n ≤ 1792) : (clearing n).pc.toNat = 0x200 + 2 * n := by
  show (0x200 + 2 * n) % 2 ^ 16 = _
  omega

/-- Empty memory holds the word 0x0000, clear-display, so each cycle only moves `pc` on. -/
theorem step_clearing {n : Nat} (h : n < 1792) : step (clearing n) = .next (clearing (n + 1)) := by
  have hpc := clearing_pc_toNat (Nat.le_of_lt h)
  have hword : (clearing n).fetchWord = 0 := by
    rw [State.fetchWord, hpc]
    show wordOfBytes (Memory.initial _) (Memory.initial _) = 0
    rw [Memory.initial_outside_font (by omega), Memory.initial_outside_font (by omega)]
    rfl
  have hf : fetches (clearing n) .cls := ⟨rfl, by omega, by rw [hword]; rfl⟩
  have hnext : BitVec.ofNat 16 (0x200 + 2 * n) + 2 = BitVec.ofNat 16 (0x200 + 2 * (n + 1)) :=
    (BitVec.ofNat_add _ 2).symm
  refine (step_of_fetches hf (exec_cls _) rfl).trans ?_
  rw [clearing, clearing, ← hnext]
  rfl

end Sys2Proof.Machine
end

section
/-! PROOFS. The invariant (10_state.md R26, R44, 60_exceptions.md R251): reset meets it, every cycle and every host move
keep it. -/

namespace Sys2Proof.Machine

open Sys2Proof.Statements

/-! ### The fault register -/

theorem State.faultExplained_of_clear {s : State} (h : s.fault = FaultRegister.clear) : s.faultExplained := by
  rw [State.faultExplained, h]
  rfl

/-- With no fault recorded the fault register is clear. -/
theorem State.fault_eq_clear {s : State} (h : s.faultExplained) (hv : s.fault.valid = false) :
    s.fault = FaultRegister.clear := by
  rw [State.faultExplained] at h
  split at h
  · exact h
  all_goals exact absurd h.1 (Bool.eq_false_iff.mp hv)

/-- What a raise records is what R251 says of its cause. -/
theorem Raises.explained {s : State} {i : Instr} {c : FaultCause} {info : Word} (h : Raises s i c info) :
    (recorded s c info).faultExplained := by
  cases h with
  | ret h => exact ⟨rfl, rfl, h, rfl⟩
  | call nnn h => exact ⟨rfl, rfl, h, rfl⟩
  | bcdStore | blockStore | blockLoad | drawRead => exact ⟨rfl, rfl, s.lowestOutside_toNat⟩
  | skp x h | sknp x h => exact ⟨rfl, rfl, x, zextByte_toNat _, h⟩
  | drawPast x y n k _ hk hpast _ =>
    have hle := State.drawCells_le hk
    have hinfo : (BitVec.ofNat 16 k).toNat = k := by
      rw [BitVec.toNat_ofNat]
      exact Nat.mod_eq_of_lt (by omega)
    refine ⟨rfl, rfl, ?_, ?_⟩
    · show 2048 ≤ (BitVec.ofNat 16 k).toNat
      omega
    · show (BitVec.ofNat 16 k).toNat ≤ 2950
      omega

/-- A recorded fault leaves every other part of the invariant alone. -/
theorem State.Inv.recorded {s : State} (h : s.Inv) {c : FaultCause} {info : Word}
    (hf : (Statements.recorded s c info).faultExplained) : (Statements.recorded s c info).Inv :=
  ⟨h.memory, h.pc, h.stack, hf⟩

/-! ### Memory, stack and `pc` after a handler -/

/-- Handlers keep memory in canonical form. -/
theorem Effect.mem_wf {s t : State} {i : Instr} (he : Effect s i t) (h : s.mem.wf) : t.mem.wf := by
  cases he with
  | store a bs _ => exact Memory.wf_writeBytes h a bs
  | _ => exact h

/-- The one address a handler pushes is its own `pc`. -/
theorem Effect.stack_le {s t : State} {i : Instr} (he : Effect s i t) (hpc : s.pc.toNat ≤ 0x1000)
    (h : ∀ k : Fin 16, s.stack[k.val].toNat ≤ 0x1000) : ∀ k : Fin 16, t.stack[k.val].toNat ≤ 0x1000 := by
  cases he with
  | call nnn hsp =>
    intro k
    show ((s.stack.set s.sp.val s.pc)[k.val]).toNat ≤ 0x1000
    rw [Vector.getElem_set]
    split
    · exact hpc
    · exact h k
  | _ => exact h

/-- The bound of R26: no instruction of memory leaves `pc` above 0xFFF + 0xFF. -/
theorem pcAfter_le {s : State} (i : Instr) (hpc : s.pc.toNat ≤ 0x0FFE)
    (hstack : ∀ k : Fin 16, s.stack[k.val].toNat ≤ 0x1000) : (pcAfter s i).toNat ≤ 0x10FE := by
  have h2 : (s.pc + 2).toNat ≤ 0x10FE := by bv_omega
  have h4 : (s.pc + 4).toNat ≤ 0x10FE := by bv_omega
  cases i with
  | jpNnn nnn | callNnn nnn =>
    have hn := nnn.isLt
    exact (zextAddr_toNat nnn).trans_le (by omega)
  | jpV0Nnn nnn =>
    have hn := nnn.isLt
    have hv := (s.reg 0).isLt
    exact (zextAddr_add_zextByte_toNat nnn (s.reg 0)).trans_le (by omega)
  | ret => exact (hstack ⟨s.sp.val - 1, by omega⟩).trans (by decide)
  | seVxKk | sneVxKk | seVxVy | sneVxVy | skpVx | sknpVx =>
    rw [pcAfter]
    split
    · assumption
    · assumption
  | ldVxK x =>
    rw [pcAfter]
    split
    · omega
    · exact h2
  | _ => exact h2

/-- A handler that does not raise leaves the whole fault register alone. -/
theorem exec_keeps_fault {i : Instr} {s t : State} (h : exec i s = .next t) (ht : t.fault.valid = false) :
    t.fault = s.fault := by
  rcases exec_raises_or_keeps h with hf | ⟨c, info, -, rfl⟩
  · exact hf
  · cases ht

/-! ### Cycles, host moves and runs -/

/-- Settles O44: reset's fields. -/
theorem resetMeetsTheInvariant : Obligations.ResetMeetsTheInvariant := by
  refine ⟨Memory.wf_nil, by decide, fun k => ?_, State.faultExplained_of_clear rfl⟩
  show ((Vector.replicate 16 (0 : Word))[k.val]).toNat ≤ 0x1000
  rw [Vector.getElem_replicate]
  decide

/-- Settles O45: a cycle that records a fault records a true one; any other keeps each part of the invariant by what its
handler can do. -/
theorem everyStepKeepsTheInvariant : Obligations.EveryStepKeepsTheInvariant := by
  intro s t hs h
  cases hv : s.fault.valid with
  | true =>
    rw [step_of_halted hv] at h
    exact Host.Outcome.next.inj h ▸ hs
  | false =>
    cases ht : t.fault.valid with
    | true =>
      rcases step_faults_cases hv h ht with ⟨hp, rfl⟩ | ⟨i, c, info, -, hr, rfl⟩
      · exact hs.recorded ⟨rfl, rfl, hp, rfl⟩
      · exact hs.recorded hr.explained
    | false =>
      obtain ⟨hp, u, hu, rfl⟩ := step_unfaulted hv h ht
      have he := exec_effect hu
      have hadvance : s.advance.pc.toNat ≤ 0x1000 := by
        rw [State.advance_pc]
        bv_omega
      have hpc : u.pc.toNat ≤ 0x10FE := by
        rw [exec_advance_pc hu ht]
        exact pcAfter_le _ hp hs.stack
      have hclear : s.fault = FaultRegister.clear := State.fault_eq_clear hs.fault hv
      exact ⟨he.mem_wf hs.memory, hpc, he.stack_le hadvance hs.stack,
        State.faultExplained_of_clear ((exec_keeps_fault hu ht).trans hclear)⟩

/-- Settles O46: a cycle by O45; reset by O44; no other move touches anything the invariant says but memory. -/
theorem everyHostMoveKeepsTheInvariant : Obligations.EveryHostMoveKeepsTheInvariant := by
  intro s t m hs h
  cases m with
  | step => exact everyStepKeepsTheInvariant s t hs h
  | reset =>
    obtain rfl := Host.Outcome.next.inj h
    obtain ⟨hmem, hpc, hstack, hfault⟩ := resetMeetsTheInvariant
    exact ⟨hmem, hpc, hstack, hfault⟩
  | load a v =>
    obtain rfl := Host.Outcome.next.inj h
    exact ⟨Memory.wf_write hs.memory a.toNat v, hs.pc, hs.stack, hs.fault⟩
  | keys k =>
    obtain rfl := Host.Outcome.next.inj h
    exact ⟨hs.memory, hs.pc, hs.stack, hs.fault⟩
  | readCell | readFault => exact Host.Outcome.next.inj h ▸ hs

/-- Settles O57: every move answers, and keeps the invariant. -/
theorem runsGoThroughAndKeepTheInvariant : Obligations.RunsGoThroughAndKeepTheInvariant := by
  intro ms s hs
  obtain ⟨t, ht⟩ := State.drive_answers ms s
  exact ⟨t, ht, State.drive_induct (fun m _ u w hu => everyHostMoveKeepsTheInvariant u w m hu) hs ht⟩

end Sys2Proof.Machine
end

section
/-! PROOFS. Runs of cycles and runs with host moves (40_cycle_driver.md R121, R129, 70_reset_and_hazards.md R293, R302):
halted, faulted, parked and waiting runs, and the delay timer over any run. -/

namespace Sys2Proof.Machine

open Sys2Proof.Statements

/-! ### Runs of cycles -/

/-- Settles O41: a halted cycle answers the state it began in. -/
theorem haltedCoreStaysHalted : Obligations.HaltedCoreStaysHalted := by
  intro n s hv
  induction n with
  | zero => exact run_zero s
  | succ n ih => rw [run_succ n (step_of_halted hv), ih]

/-- A run is its first cycles followed by the rest. -/
theorem run_add {a : Nat} {s t : State} (h : core.run a s = .next t) (b : Nat) :
    core.run (a + b) s = core.run b t := by
  rw [← State.drive_replicate_step] at h ⊢
  rw [List.replicate_add, State.drive_append _ _ h, State.drive_replicate_step]

theorem run_clearing (n : Nat) : ∀ m, m + n ≤ 1792 → core.run n (clearing m) = .next (clearing (m + n)) := by
  induction n with
  | zero => exact fun m _ => run_zero _
  | succ n ih =>
    intro m h
    rw [run_succ n (step_clearing (by omega)), ih (m + 1) (by omega), Nat.add_assoc, Nat.add_comm 1 n]

/-- Settles O49: 1792 cycles of clear-display, a fetch fault at 0x1000, and a halted core from there. -/
theorem emptyMemoryClearsThenFaults : Obligations.EmptyMemoryClearsThenFaults := by
  have hclear : ∀ n, n ≤ 1792 → core.run n State.reset = .next (clearing n) := fun n hn => by
    have h := run_clearing n 0 (by omega)
    rwa [Nat.zero_add] at h
  refine ⟨hclear, fun n hn => ?_⟩
  obtain ⟨k, rfl⟩ : ∃ k, n = 1792 + (k + 1) := ⟨n - 1793, by omega⟩
  have hfault : step (clearing 1792) = .next (clearing 1792).fetchFault :=
    step_of_unfetchable rfl (by rw [clearing_pc_toNat (Nat.le_refl _)]; decide)
  refine (run_add (hclear 1792 (Nat.le_refl _)) (k + 1)).trans ?_
  rw [run_succ k hfault]
  exact haltedCoreStaysHalted k _ rfl

/-- A run that ends without a fault began without one. -/
theorem unfaulted_of_run {k : Nat} {s t : State} (h : core.run k s = .next t) (ht : t.fault.valid = false) :
    s.fault.valid = false := by
  rw [Bool.eq_false_iff]
  intro hv
  rw [← Host.Outcome.next.inj ((haltedCoreStaysHalted k s hv).symm.trans h), hv] at ht
  cases ht

/-- Settles O38, by induction on the cycles: a run that ends without a fault has none before its end, so each of its
cycles ticks (`step_timers`). -/
theorem delayTimerCountsCycles : Obligations.DelayTimerCountsCycles := by
  intro k
  induction k with
  | zero =>
    intro s t h _ _
    obtain rfl := Host.Outcome.next.inj h
    rfl
  | succ k ih =>
    intro s t h ht hne
    obtain ⟨u, hu⟩ := step_answers s
    have hrun : core.run k u = .next t := (run_succ k hu).symm.trans h
    have hcount := ih u t hrun ht fun j w hj hw => hne (j + 1) w (Nat.succ_lt_succ hj) ((run_succ j hu).trans hw)
    obtain ⟨hdt, -⟩ := step_timers (unfaulted_of_run h ht) hu (unfaulted_of_run hrun ht)
    rw [s.handlerDt_of_ne (hne 0 s (Nat.succ_pos k) (run_zero s))] at hdt
    omega

/-! ### Runs with host moves -/

/-- Settles O56: by induction over the moves, in the laws of runs. -/
theorem stepRequestsAloneRunTheCore : Obligations.StepRequestsAloneRunTheCore :=
  ⟨fun n s => ⟨State.drive_replicate_step n s, List.count_replicate_self⟩,
    fun ms ns _ _ h => ⟨State.drive_append ms ns h, List.count_append⟩⟩

/-- Settles O58: every move but a reset keeps all but the key flags and memory, since a cycle of a faulted core does
nothing. -/
theorem faultedCoreUnderHostMoves : Obligations.FaultedCoreUnderHostMoves := by
  intro ms s hv hms
  obtain ⟨t, ht⟩ := State.drive_answers ms s
  have hkept : ∀ m ∈ ms, ∀ u w : State, u = { s with keys := u.keys, mem := u.mem } → u.apply m = .next w →
      w = { s with keys := w.keys, mem := w.mem } := by
    intro m hm u w hu h
    cases m with
    | reset => exact absurd hm hms
    | step =>
      have hvu : u.fault.valid = true := by rw [hu]; exact hv
      exact Host.Outcome.next.inj ((step_of_halted hvu).symm.trans h) ▸ hu
    | load a b =>
      obtain rfl := Host.Outcome.next.inj h
      exact congrArg (State.setMem · (u.mem.write a.toNat b)) hu
    | keys k =>
      obtain rfl := Host.Outcome.next.inj h
      exact congrArg (State.driveKeys · k) hu
    | readCell | readFault => exact Host.Outcome.next.inj h ▸ hu
  refine ⟨⟨t, ht, State.drive_induct hkept rfl ht⟩, t.resetRequest, ?_, rfl, rfl⟩
  rw [State.drive_append ms _ ht]
  rfl

/-! ### Cores whose cycles only tick, R302 (b), (c) -/

/-- After `n` cycles that only tick: the timers are down by `n`, and only they and the key flags may differ. -/
def State.countedDown (s t : State) (n : Nat) : Prop :=
  t = { s with dt := t.dt, st := t.st, keys := t.keys } ∧ t.dt.toNat = s.dt.toNat - n ∧ t.st.toNat = s.st.toNat - n

theorem State.countedDown_refl (s : State) : s.countedDown s 0 := ⟨rfl, rfl, rfl⟩

theorem State.countedDown.of_tick {s t : State} {n : Nat} (h : s.tick.countedDown t n) : s.countedDown t (n + 1) := by
  obtain ⟨heq, hdt, hst⟩ := h
  rw [State.tick_dt, tickTimer_toNat] at hdt
  rw [State.tick_st, tickTimer_toNat] at hst
  exact ⟨heq, by omega, by omega⟩

theorem State.countedDown.of_driveKeys {s t : State} {k : BitVec 16} {n : Nat} (h : (s.driveKeys k).countedDown t n) :
    s.countedDown t n := h

/-- Host moves without reset and loader write, from a state with a property under which a cycle is the tick alone and
which the tick and the moves' key changes keep. -/
theorem drive_countsDown {P : State → Prop} (hstep : ∀ s, P s → step s = .next s.tick) (htick : ∀ s, P s → P s.tick)
    {ms : List HostMove} (hms : noResetNoLoad ms) (hkeys : ∀ s k, .keys k ∈ ms → P s → P (s.driveKeys k)) :
    ∀ s, P s → ∃ t, s.drive ms = .next t ∧ P t ∧ s.countedDown t (stepRequests ms) := by
  induction ms with
  | nil => exact fun s hs => ⟨s, rfl, hs, s.countedDown_refl⟩
  | cons m ms ih =>
    intro s hs
    obtain ⟨hreset, hload⟩ := hms
    have ih' := ih ⟨fun h => hreset (List.mem_cons_of_mem m h), fun a v h => hload a v (List.mem_cons_of_mem m h)⟩
      fun s k h => hkeys s k (List.mem_cons_of_mem m h)
    cases m with
    | reset => exact absurd List.mem_cons_self hreset
    | load a v => exact absurd List.mem_cons_self (hload a v)
    | step =>
      obtain ⟨t, ht, hP, hcount⟩ := ih' s.tick (htick s hs)
      exact ⟨t, (State.drive_cons (m := .step) (hstep s hs) ms).trans ht, hP, by
        rw [stepRequests_cons]; exact hcount.of_tick⟩
    | keys k =>
      obtain ⟨t, ht, hP, hcount⟩ := ih' (s.driveKeys k) (hkeys s k List.mem_cons_self hs)
      exact ⟨t, ht, hP, by rw [stepRequests_cons]; exact hcount.of_driveKeys⟩
    | readCell | readFault =>
      obtain ⟨t, ht, hP, hcount⟩ := ih' s hs
      exact ⟨t, ht, hP, by rw [stepRequests_cons]; exact hcount⟩

/-- A run of `step` requests alone resets, loads and drives nothing. -/
theorem noResetNoLoad_replicate_step (n : Nat) : noResetNoLoad (List.replicate n .step) :=
  ⟨fun h => (nomatch List.eq_of_mem_replicate h), fun _ _ h => (nomatch List.eq_of_mem_replicate h)⟩

/-- The same over cycles alone, where the key flags stay too. -/
theorem run_countsDown {P : State → Prop} (hstep : ∀ s, P s → step s = .next s.tick) (htick : ∀ s, P s → P s.tick)
    (n : Nat) {s : State} (hs : P s) : ∃ t, core.run n s = .next t ∧ t = { s with dt := t.dt, st := t.st } ∧
      t.dt.toNat = s.dt.toNat - n ∧ t.st.toNat = s.st.toNat - n := by
  obtain ⟨t, ht, ⟨-, hkeys⟩, heq, hdt, hst⟩ := drive_countsDown (P := fun u => P u ∧ u.keys = s.keys)
    (fun u hu => hstep u hu.1) (fun u hu => ⟨htick u hu.1, hu.2⟩) (noResetNoLoad_replicate_step n)
    (fun _ _ h => nomatch List.eq_of_mem_replicate h) s ⟨hs, rfl⟩
  have hn : stepRequests (List.replicate n .step) = n := List.count_replicate_self
  rw [hn] at hdt hst
  rw [hkeys] at heq
  exact ⟨t, (State.drive_replicate_step n s).symm.trans ht, heq, hdt, hst⟩

/-! ### Parked, R302 (b) -/

/-- The word of a jump to itself, at an address of memory. -/
theorem decodeWord_jump_to_itself {a : Word} (ha : a.toNat ≤ 0xFFE) :
    decodeWord (0x1000 ||| a) = .jpNnn (a.setWidth 12) := by
  have hword : (0x1000 ||| a : Word) = withAddr 0x1 (a.setWidth 12) := by
    apply BitVec.eq_of_toNat_eq
    rw [BitVec.toNat_or]
    refine ((Nat.two_pow_add_eq_or_of_lt (i := 12) (b := a.toNat) (by omega) 1).symm).trans ?_
    refine Eq.trans ?_ (wordNNN_toNat (by decide) _).symm
    rw [BitVec.toNat_setWidth]
    omega
  rw [hword, decodeWord_jpNnn]

/-- A parked core that is not halted. -/
def State.parkedRun (s : State) : Prop := s.fault.valid = false ∧ s.parked

/-- A jump to itself undoes the advance, so a parked cycle is the tick alone. -/
theorem step_of_parkedRun (s : State) (h : s.parkedRun) : step s = .next s.tick := by
  obtain ⟨hv, hpc, hword⟩ := h
  have hi : decodeWord s.fetchWord = .jpNnn (s.pc.setWidth 12) := by rw [hword, decodeWord_jump_to_itself hpc]
  have htarget : zextAddr (s.pc.setWidth 12) = s.pc := by
    apply BitVec.eq_of_toNat_eq
    rw [zextAddr_toNat, BitVec.toNat_setWidth]
    omega
  have he : exec (.jpNnn (s.pc.setWidth 12)) s.advance = .next s := by
    rw [exec_jpNnn, htarget]
    rfl
  exact step_of_fetches ⟨hv, hpc, hi⟩ he rfl

/-- Settles O54: a parked core ticks and stays parked. -/
theorem parkedCoreOnlyCountsDown : Obligations.ParkedCoreOnlyCountsDown := by
  intro n s hv hp
  exact run_countsDown step_of_parkedRun (fun _ hu => hu) n ⟨hv, hp⟩

/-- Settles O59: a parked core stays parked under the tick and under key changes. -/
theorem parkedCoreUnderHostMoves : Obligations.ParkedCoreUnderHostMoves := by
  intro ms s hv hp hms
  obtain ⟨t, ht, -, heq, hdt, hst⟩ :=
    drive_countsDown step_of_parkedRun (fun _ hu => hu) hms (fun _ _ _ hu => hu) s ⟨hv, hp⟩
  exact ⟨t, ht, heq, hdt, hst⟩

/-! ### Waiting, R302 (c) -/

/-- A waiting core that is not halted. -/
def State.waitingRun (s : State) : Prop := s.fault.valid = false ∧ s.waiting

/-- With no key set a waiting cycle is the tick alone. -/
theorem step_of_waitingRun (s : State) (h : s.waitingRun) : step s = .next s.tick := by
  obtain ⟨hv, hpc, ⟨x, hx⟩, hkeys⟩ := h
  exact step_of_waiting ⟨hv, hpc, hx⟩ fun k _ => by simp [State.key, hkeys]

/-- Settles O55: a waiting core ticks and stays waiting. -/
theorem waitingCoreOnlyCountsDown : Obligations.WaitingCoreOnlyCountsDown := by
  intro n s hv hw
  exact run_countsDown step_of_waitingRun (fun _ hu => hu) n ⟨hv, hw⟩

/-- The cycle of wait-for-key with a key down: the least key to the register, and on to the next instruction. -/
theorem step_of_key {s : State} {x : RegIx} {j : Nat} (hf : fetches s (.ldVxK x)) (hj : j < 16)
    (hdown : s.key j = true) (hleast : ∀ i, i < j → s.key i = false) :
    step s = .next (s.advance.setReg x (BitVec.ofNat 8 j)).tick :=
  step_of_fetches hf (exec_ldVxK_of_least_key x (s := s.advance) hj hdown hleast) rfl

/-- Settles O60: the run keeps waiting until keys are set, and then one cycle is `step_of_key`. -/
theorem waitingCoreUnderHostMoves : Obligations.WaitingCoreUnderHostMoves := by
  intro ms s x hv hw hx hms hzero
  have hkeep : ∀ u k, .keys k ∈ ms → State.waitingRun u → (u.driveKeys k).waitingRun :=
    fun u k hk ⟨hvu, hpc, hword, _⟩ => ⟨hvu, hpc, hword, hzero k hk⟩
  obtain ⟨t, ht, ⟨-, hwt⟩, heq, hdt, hst⟩ := drive_countsDown step_of_waitingRun (fun _ hu => hu) hms hkeep s ⟨hv, hw⟩
  have hkeys : t.keys = s.keys := hwt.2.2.trans hw.2.2.symm
  rw [hkeys] at heq
  refine ⟨⟨t, ht, heq, hwt, hdt, hst⟩, fun k j hdown hleast => ?_⟩
  obtain ⟨d, e, rfl⟩ : ∃ d e, t = { s with dt := d, st := e } := ⟨_, _, heq⟩
  have hstep := step_of_key (s := State.driveKeys { s with dt := d, st := e } k) ⟨hv, hw.1, hx⟩ j.isLt hdown hleast
  refine ⟨_, (State.drive_append ms _ ht).trans (State.drive_cons (m := .step) hstep []), ?_, fun z => ?_, rfl⟩
  · have hpc := hw.1
    show (s.pc + 2).toNat = _
    bv_omega
  · have hj := j.isLt
    have hvalue : (BitVec.ofNat 8 j.val).toNat = j.val := by
      rw [BitVec.toNat_ofNat]
      exact Nat.mod_eq_of_lt (by omega)
    rw [State.reg_tick, State.reg_setReg]
    by_cases hz : z = x
    · rw [if_pos hz.symm, if_pos hz, hvalue]
    · rw [if_neg (Ne.symm hz), if_neg hz]
      rfl

end Sys2Proof.Machine
end
